-- ==== Sys2Proof/Word.lean ====
section
/-! DEFINITION. The widths of the interconnect's values (spec/00_scope.md R8, R10): every value is an unsigned
bit vector, bit 0 is the least significant bit. -/

namespace Sys2Proof

/-- A bus address, a data word, a word of ROM or RAM: 16 bits (R8 `ADDR_W`, `DATA_W`). -/
abbrev Word := BitVec 16

/-- The control word `CW` = reset, cruclk, wr, rd, addr of one cycle: 20 bits (R53). -/
abbrev ControlWord := BitVec 20

/-- Index of a ROM word, 0 to 4095 (R8 `ROM_IDX_W`). -/
abbrev RomIndex := BitVec 12

/-- Index of a RAM word, 0 to 16383 (R8 `RAM_IDX_W`). -/
abbrev RamIndex := BitVec 14

/-- Number of a CRU bit-register, 0 to 31 (R8 `CRU_SUB_W`). -/
abbrev CruSub := BitVec 5

end Sys2Proof
end

