-- ==== Sys2Proof/Machine/Operands.lean ====
section
/-! DEFINITION. The fields the hardware extracts from `addr`, and from nothing else (spec/30_encoding.md R55).
All are unsigned slices, low bound first here: `extractLsb' lo width`. Reading A of spec/90_conflicts.md C1
(decision D1, log 13) lives in `romIdx` and `ramIdx` alone. -/

namespace Sys2Proof.Machine

/-- `bank = addr[15]`: false selects the ROM region, true the RAM region (R33, R55). -/
def bank (a : Word) : Bool := a.getLsbD 15

/-- `rom_idx = addr[12:1]` (R35). -/
def romIdx (a : Word) : RomIndex := a.extractLsb' 1 12

/-- `ram_idx = addr[14:1]` (R36). -/
def ramIdx (a : Word) : RamIndex := a.extractLsb' 1 14

/-- `cru_hi = addr[15:6]` (R55). -/
def cruHi (a : Word) : BitVec 10 := a.extractLsb' 6 10

/-- `cru_sub = addr[5:1]`, the number of the CRU bit-register (R117; C9). -/
def cruSub (a : Word) : CruSub := a.extractLsb' 1 5

end Sys2Proof.Machine
end

