-- ==== Sys2Proof/Machine/Flags.lean ====
section
/-! DEFINITION. The one-bit signals. The interconnect has no condition flag of any kind (spec/10_state.md R19);
its one-bit results are the five combinational signals of the address decoder (spec/41_address_decoder.md R77 to
R82) and the gated strobe of the CRU bridge (spec/44_cru_bridge.md R115). None reads `addr[0]`, `reset` or state. -/

namespace Sys2Proof.Machine

/-- `rom_select = (addr[15] == 0)` (R78). -/
def romSelect (a : Word) : Bool := !bank a

/-- `ram_select = (addr[15] == 1)` (R79). -/
def ramSelect (a : Word) : Bool := bank a

/-- `write_ram_strobe = ram_select AND wr` (R80). -/
def writeRamStrobe (a : Word) (wr : Bool) : Bool := ramSelect a && wr

/-- `read_ram_strobe = ram_select AND rd` (R81). -/
def readRamStrobe (a : Word) (rd : Bool) : Bool := ramSelect a && rd

/-- `peripheral_select = (addr[15:6] == 0)` (R82). -/
def peripheralSelect (a : Word) : Bool := cruHi a == 0

/-- `per_strobe = per_sel AND per_cruclk`: the event the peripheral reacts to (R115, R122). -/
def perStrobe (perSel perCruclk : Bool) : Bool := perSel && perCruclk

end Sys2Proof.Machine
end

