-- ==== Sys2Proof/Syntax.lean ====
section
/-! DEFINITION. What the interconnect receives in one cycle (spec/30_encoding.md R51) and the bus-cycle
operations it performs (R56, R57): one constructor for each mnemonic of spec/opcode_table.json. The ten rows of
`CRU.OFF` are one operation with one rule (R58, log 20). -/

namespace Sys2Proof

/-- The cycle vector of R51: the input ports of one cycle. `per_cruin` is not here: the peripheral's state
answers it (R118, log 5). -/
structure CycleVector where
  reset : Bool
  cruclk : Bool
  wr : Bool
  rd : Bool
  addr : Word
  dataOut : Word
  cruout : Bool
deriving DecidableEq, Repr, Inhabited

/-- Everything the environment drives in one cycle: the vector on the bus, and the level of the
peripheral's pin `rx`, which only the peripheral reads (R30, R118). -/
structure Inputs where
  bus : CycleVector
  rx : Bool
deriving DecidableEq, Repr, Inhabited

/-- A bus-cycle operation (R3). An operation keeps every bit that its row of the encoding tables of R56 to R58
leaves free, and the operand words its rule names; `addr` is the whole bus address. -/
inductive Instr where
  | romIdle (cruclk : Bool) (addr : Word)
  | romRd (cruclk : Bool) (addr : Word)
  | romWr (cruclk : Bool) (addr : Word) (dataOut : Word)
  | romRw (cruclk : Bool) (addr : Word) (dataOut : Word)
  | ramIdle (cruclk : Bool) (addr : Word)
  | ramRd (cruclk : Bool) (addr : Word)
  | ramWr (cruclk : Bool) (addr : Word) (dataOut : Word)
  | ramRw (cruclk : Bool) (addr : Word) (dataOut : Word)
  | rstRom (cruclk wr rd : Bool) (addr : Word)
  | rstRam (cruclk rd : Bool) (addr : Word)
  | rstRamWr (cruclk rd : Bool) (addr : Word) (dataOut : Word)
  | cruStrobe (reset wr rd : Bool) (addr : Word) (cruout : Bool)
  | cruSense (reset wr rd : Bool) (addr : Word) (cruout : Bool)
  | cruOff (reset cruclk wr rd : Bool) (addr : Word) (cruout : Bool)
deriving DecidableEq, Repr, Inhabited

/-- The two independent formats of R56 and R57. -/
inductive Format where
  | mem
  | cru
deriving DecidableEq, Repr

/-- The format of an operation's row. -/
def Instr.format : Instr → Format
  | .romIdle .. => .mem
  | .romRd .. => .mem
  | .romWr .. => .mem
  | .romRw .. => .mem
  | .ramIdle .. => .mem
  | .ramRd .. => .mem
  | .ramWr .. => .mem
  | .ramRw .. => .mem
  | .rstRom .. => .mem
  | .rstRam .. => .mem
  | .rstRamWr .. => .mem
  | .cruStrobe .. => .cru
  | .cruSense .. => .cru
  | .cruOff .. => .cru

/-- The mnemonic of an operation's row, as spec/opcode_table.json spells it. -/
def Instr.mnemonic : Instr → String
  | .romIdle .. => "ROM.IDLE"
  | .romRd .. => "ROM.RD"
  | .romWr .. => "ROM.WR"
  | .romRw .. => "ROM.RW"
  | .ramIdle .. => "RAM.IDLE"
  | .ramRd .. => "RAM.RD"
  | .ramWr .. => "RAM.WR"
  | .ramRw .. => "RAM.RW"
  | .rstRom .. => "RST.ROM"
  | .rstRam .. => "RST.RAM"
  | .rstRamWr .. => "RST.RAMWR"
  | .cruStrobe .. => "CRU.STROBE"
  | .cruSense .. => "CRU.SENSE"
  | .cruOff .. => "CRU.OFF"

end Sys2Proof
end

