-- ==== Sys2Proof/WellFormed.lean ====
section
/-! DEFINITION. When an operation is well formed: its mnemonic agrees with its address (spec/30_encoding.md R56,
R57, R65 "must agree with `addr[15]`"). -/

namespace Sys2Proof

/-- A `ROM.*` or `RST.ROM` operation has `addr[15] = 0`, a `RAM.*`, `RST.RAM` or `RST.RAMWR` operation has
`addr[15] = 1`, `CRU.STROBE` and `CRU.SENSE` have `addr[15:6] = 0`, `CRU.OFF` has not. -/
def Instr.wellFormed : Instr → Bool
  | .romIdle _ a => Machine.romSelect a
  | .romRd _ a => Machine.romSelect a
  | .romWr _ a _ => Machine.romSelect a
  | .romRw _ a _ => Machine.romSelect a
  | .ramIdle _ a => Machine.ramSelect a
  | .ramRd _ a => Machine.ramSelect a
  | .ramWr _ a _ => Machine.ramSelect a
  | .ramRw _ a _ => Machine.ramSelect a
  | .rstRom _ _ _ a => Machine.romSelect a
  | .rstRam _ _ a => Machine.ramSelect a
  | .rstRamWr _ _ a _ => Machine.ramSelect a
  | .cruStrobe _ _ _ a _ => Machine.peripheralSelect a
  | .cruSense _ _ _ a _ => Machine.peripheralSelect a
  | .cruOff _ _ _ _ a _ => !Machine.peripheralSelect a

end Sys2Proof
end

