-- ==== Sys2Proof/Decode.lean ====
section
/-! DEFINITION. The decode of one cycle (spec/30_encoding.md): the control word's packing (R53), the opcode
table's rows (R56 to R58), the two independent decodes (R60, R61), and the encoder. Every cycle vector decodes to one
memory-path and one CRU-path operation; no vector is illegal (R62). -/

namespace Sys2Proof

/-- `CW = {reset, cruclk, wr, rd, addr}` (R53). -/
def controlWord (v : CycleVector) : ControlWord :=
  BitVec.ofBool v.reset ++ BitVec.ofBool v.cruclk ++ BitVec.ofBool v.wr ++ BitVec.ofBool v.rd ++ v.addr

/-- The cycle vector that a control word and the two operands make (R53, R54). -/
def vectorOf (cw : ControlWord) (dataOut : Word) (cruout : Bool) : CycleVector where
  reset := cw.getLsbD 19
  cruclk := cw.getLsbD 18
  wr := cw.getLsbD 17
  rd := cw.getLsbD 16
  addr := cw.extractLsb' 0 16
  dataOut := dataOut
  cruout := cruout

/-- One row of the opcode table: a control word matches when `(CW AND mask) == match` (R56). -/
structure OpcodeRow where
  mnemonic : String
  mask : ControlWord
  pattern : ControlWord
deriving DecidableEq, Repr

/-- Whether a control word matches a row (R56). -/
def OpcodeRow.covers (r : OpcodeRow) (cw : ControlWord) : Bool := cw &&& r.mask == r.pattern

/-- The eleven rows of format `MEM` (R56). -/
def memRows : List OpcodeRow :=
  [ ⟨"ROM.IDLE", 0xB8000, 0x00000⟩, ⟨"ROM.RD", 0xB8000, 0x10000⟩, ⟨"ROM.WR", 0xB8000, 0x20000⟩,
    ⟨"ROM.RW", 0xB8000, 0x30000⟩, ⟨"RAM.IDLE", 0xB8000, 0x08000⟩, ⟨"RAM.RD", 0xB8000, 0x18000⟩,
    ⟨"RAM.WR", 0xB8000, 0x28000⟩, ⟨"RAM.RW", 0xB8000, 0x38000⟩, ⟨"RST.ROM", 0x88000, 0x80000⟩,
    ⟨"RST.RAM", 0xA8000, 0x88000⟩, ⟨"RST.RAMWR", 0xA8000, 0xA8000⟩ ]

/-- The twelve rows of format `CRU`; ten of them are `CRU.OFF`, one for each position of the highest set bit of
`addr[15:6]` (R57, R58). -/
def cruRows : List OpcodeRow :=
  [ ⟨"CRU.STROBE", 0x4FFC0, 0x40000⟩, ⟨"CRU.SENSE", 0x4FFC0, 0x00000⟩,
    ⟨"CRU.OFF", 0x08000, 0x08000⟩, ⟨"CRU.OFF", 0x0C000, 0x04000⟩, ⟨"CRU.OFF", 0x0E000, 0x02000⟩,
    ⟨"CRU.OFF", 0x0F000, 0x01000⟩, ⟨"CRU.OFF", 0x0F800, 0x00800⟩, ⟨"CRU.OFF", 0x0FC00, 0x00400⟩,
    ⟨"CRU.OFF", 0x0FE00, 0x00200⟩, ⟨"CRU.OFF", 0x0FF00, 0x00100⟩, ⟨"CRU.OFF", 0x0FF80, 0x00080⟩,
    ⟨"CRU.OFF", 0x0FFC0, 0x00040⟩ ]

/-- The memory-path operation a cycle selects, by `reset`, `addr[15]`, `wr` and `rd` (R56). -/
def decodeMem (v : CycleVector) : Instr :=
  match v.reset, Machine.bank v.addr, v.wr, v.rd with
  | false, false, false, false => .romIdle v.cruclk v.addr
  | false, false, false, true => .romRd v.cruclk v.addr
  | false, false, true, false => .romWr v.cruclk v.addr v.dataOut
  | false, false, true, true => .romRw v.cruclk v.addr v.dataOut
  | false, true, false, false => .ramIdle v.cruclk v.addr
  | false, true, false, true => .ramRd v.cruclk v.addr
  | false, true, true, false => .ramWr v.cruclk v.addr v.dataOut
  | false, true, true, true => .ramRw v.cruclk v.addr v.dataOut
  | true, false, wr, rd => .rstRom v.cruclk wr rd v.addr
  | true, true, false, rd => .rstRam v.cruclk rd v.addr
  | true, true, true, rd => .rstRamWr v.cruclk rd v.addr v.dataOut

/-- The CRU-path operation a cycle selects, by `addr[15:6]` and `cruclk` (R57). -/
def decodeCru (v : CycleVector) : Instr :=
  match Machine.peripheralSelect v.addr, v.cruclk with
  | true, true => .cruStrobe v.reset v.wr v.rd v.addr v.cruout
  | true, false => .cruSense v.reset v.wr v.rd v.addr v.cruout
  | false, clk => .cruOff v.reset clk v.wr v.rd v.addr v.cruout

/-- Why a number is no control word. -/
inductive DecodeRefusal where
  /-- It has a bit above bit 19: the hardware has no wire for it (R53). Safe: no cycle vector is refused. -/
  | widerThanControlWord (w : Nat)
deriving DecidableEq, Repr

/-- The two operations of the cycle whose control word is the number `w` and whose operands are zero. Total:
every number below 2^20 decodes, every other is rejected by name. -/
def decode (w : Nat) : Except DecodeRefusal (Instr × Instr) :=
  if w < 2 ^ 20 then
    .ok (decodeMem (vectorOf (BitVec.ofNat 20 w) 0 false), decodeCru (vectorOf (BitVec.ofNat 20 w) 0 false))
  else .error (.widerThanControlWord w)

/-- ONE of the two operations of a cycle, for an interface that can name only one (log 11): the memory-path
operation where the cycle asserts `reset`, `wr` or `rd` or addresses the RAM region (its CRU operation is then
`CRU.OFF` whenever it addresses RAM, R60), else the CRU-path operation. -/
def namedOperation (v : CycleVector) : Instr :=
  if v.reset || v.wr || v.rd || Machine.bank v.addr then decodeMem v else decodeCru v

/-- The operation the decoder reads from a table row's word (log 11): the operand wires are zero, and so is every
bit above `nbits`. -/
def decodeTableWord (nbits w : Nat) : Option Instr :=
  match decode (w % 2 ^ nbits) with
  | .ok _ => some (namedOperation (vectorOf (BitVec.ofNat 20 (w % 2 ^ nbits)) 0 false))
  | .error _ => none

/-- The encoder, written from the encoding columns of R56 to R58: the cycle vector of an operation, every wire the
operation does not name at 0. -/
def encode : Instr → CycleVector
  | .romIdle c a => ⟨false, c, false, false, a, 0, false⟩
  | .romRd c a => ⟨false, c, false, true, a, 0, false⟩
  | .romWr c a v => ⟨false, c, true, false, a, v, false⟩
  | .romRw c a v => ⟨false, c, true, true, a, v, false⟩
  | .ramIdle c a => ⟨false, c, false, false, a, 0, false⟩
  | .ramRd c a => ⟨false, c, false, true, a, 0, false⟩
  | .ramWr c a v => ⟨false, c, true, false, a, v, false⟩
  | .ramRw c a v => ⟨false, c, true, true, a, v, false⟩
  | .rstRom c w d a => ⟨true, c, w, d, a, 0, false⟩
  | .rstRam c d a => ⟨true, c, false, d, a, 0, false⟩
  | .rstRamWr c d a v => ⟨true, c, true, d, a, v, false⟩
  | .cruStrobe r w d a b => ⟨r, true, w, d, a, 0, b⟩
  | .cruSense r w d a b => ⟨r, false, w, d, a, 0, b⟩
  | .cruOff r c w d a b => ⟨r, c, w, d, a, 0, b⟩

/-- The control word of an operation (R53). -/
def encodeWord (i : Instr) : ControlWord := controlWord (encode i)

/-- The decoder of an operation's own format: the memory-path decode for a memory-path operation, the CRU-path
decode for a CRU-path operation (R61). -/
def decodeAs (f : Format) (v : CycleVector) : Instr :=
  match f with
  | .mem => decodeMem v
  | .cru => decodeCru v

end Sys2Proof
end

