-- ==== Sys2Proof/Config.lean ====
section
/-! DEFINITION. The configuration record of one instance (spec/10_state.md R26), the fixed parameters of the
design (spec/00_scope.md R8), and the free values: constants without a body for what the spec leaves open
(R9, R11 `any16`, `any1`, the black boxes of R7). -/

namespace Sys2Proof

/-- What a same-cycle read and write of one RAM word returns (`RAM_RW_SAME_ADDR`, R106). -/
inductive RwSameAddr where
  /-- `OLD`: the word before the write. -/
  | old
  /-- `NEW`: the word written. -/
  | new
deriving DecidableEq, Repr, Inhabited

/-- The shape of one memory block as it is constructed (R109, R110): the widths are positive (R26), the depth may be
the 0 that construction refuses. -/
structure BlockShape where
  readWidth : PNat
  writeWidth : PNat
  depth : Nat
deriving DecidableEq, Repr

/-- `WAITS_WIDTH`, a positive integer, and `WAITS_VALUE`, a constant of that width (R9, R25). By its type no record has
a width of 0 or a value that does not fit (log 9). -/
structure Waits where
  width : PNat
  bits : BitVec width
deriving DecidableEq, Repr

/-- `WAITS_VALUE` as a number, below 2 to the width. -/
def Waits.value (w : Waits) : Nat := w.bits.toNat

/-- The configuration record `CFG` (R26). No step changes it. -/
structure Cfg where
  /-- `REF_FREQ_HZ`: a positive integer (R9). -/
  refFreqHz : PNat
  /-- `REF_PERIOD`: no rule uses it and the source gives it no type (log 10). -/
  refPeriod : Int
  /-- `REQ_FREQ_HZ`: absent or an integer. -/
  reqFreqHz : Option Int
  /-- `ROM_IMAGE`, word 0 first. -/
  romImage : List Word
  /-- `RAM_INIT`, word 0 first; a word the list does not reach is `Config.ramWord` of its index (log 8). -/
  ramInit : List Word
  romShape : BlockShape
  ramShape : BlockShape
  /-- `RAM_RW_SAME_ADDR` -/
  rwSameAddr : RwSameAddr
  /-- `DIN_RESET`: absent or a word. -/
  dinReset : Option Word
  waits : Waits
deriving DecidableEq, Repr

/-- The three kinds of `ConfigError` (R142). They arise before time zero only: no instance exists then. -/
inductive ConfigError where
  /-- The effective frequency is not a positive multiple of 1 MHz below 64 MHz (R144). -/
  | badFrequency
  /-- A memory block's read-data width is not its write-data width (R143). -/
  | widthMismatch
  /-- A memory block of depth 0, or a ROM image that does not have exactly 4096 words (R145). -/
  | malformedConfig
deriving DecidableEq, Repr

/-- `ROM_WORDS` (R8). -/
abbrev Config.romWords : Nat := 4096

/-- `RAM_WORDS` (R8). -/
abbrev Config.ramWords : Nat := 16384

/-- `DATA_W` (R8). -/
abbrev Config.dataWidth : PNat := 16

/-- `FREQ_UNIT_HZ` (R8). -/
abbrev Config.freqUnitHz : Int := 1000000

/-- `FREQ_LIMIT_HZ` (R8). -/
abbrev Config.freqLimitHz : Int := 64000000

/-- `any16` (R11): the word of the n-th draw. DESIGN CHOICE, log 3. -/
opaque Config.anyWord : Nat → Word

/-- `any1` (R11): the bit of the n-th draw. DESIGN CHOICE, log 3. -/
opaque Config.anyBit : Nat → Bool

/-- What the environment (the processor, the host's `reset`, the pin `rx`) drives in a cycle for which nothing is
pending, from the cycle index, `data_in` and the `cruin` of the cycle before. Every input is legal (R63). Log 4. -/
opaque Config.environment : Nat → Word → Bool → Inputs

/-- Word i of the `ROM_IMAGE` of the instance that `State.reset` is (OPEN, D6, log 7). -/
opaque Config.romWord : Nat → Word

/-- Word i of `RAM_INIT` where the record lists none (OPEN, D6, log 8). -/
opaque Config.ramWord : Nat → Word

/-- `RAM_RW_SAME_ADDR` of that instance (OPEN, D2, log 9). -/
opaque Config.rwSameAddr : RwSameAddr

/-- `DIN_RESET` of that instance (OPEN, D4, log 9). -/
opaque Config.dinReset : Option Word

/-- `WAITS_WIDTH` of that instance (OPEN, D7, log 9). -/
opaque Config.waitsWidth : PNat

/-- `WAITS_VALUE` of that instance, of that width (OPEN, D7, log 9). -/
opaque Config.waitsBits : BitVec Config.waitsWidth

/-- The free number behind the effective frequency (OPEN, D21, log 10). -/
opaque Config.clockDraw : Nat

/-- Whether that instance is given a requested frequency (OPEN, D21, log 10). -/
opaque Config.requested : Bool

/-- Its reference frequency where a frequency is requested: any positive integer (OPEN, D21,
log 10). -/
opaque Config.anyReferenceHz : PNat

/-- Its `REF_PERIOD` (R26, log 10). -/
opaque Config.refPeriod : Int

/-- The peripheral's hidden state at time zero, from the `BAUD_PARAM` it was built with (R29, R71, log 5). -/
opaque Config.periphPowerUp : Nat → Nat

/-- `P.sense`: the peripheral's answer bit, from its hidden state and the sub-address (R118, log 5). -/
opaque Config.periphSense : Nat → CruSub → Bool

/-- `P.step` in a cycle that selects the peripheral: hidden state, `per_cruclk`, `per_cruout`, `per_s`, `reset`,
`rx` (R118, log 5). -/
opaque Config.periphStepSelected : Nat → Bool → Bool → CruSub → Bool → Bool → Nat

/-- `P.step` in a cycle that does not select it: it depends on none of `per_cruclk`, `per_cruout`, `per_s`
(R122, log 5). -/
opaque Config.periphStepDeselected : Nat → Bool → Bool → Nat

/-- `f i, f (i+1), …`, n words: an array given as a function, as the list the record holds. -/
def Config.tabulate (f : Nat → Word) : Nat → Nat → List Word
  | 0, _ => []
  | n + 1, i => f i :: tabulate f n (i + 1)

/-- The effective frequency in MHz of the instance that `State.reset` is: any of 1 to 63 (R174, log 10). -/
def Config.clockMHz : Nat := 1 + Config.clockDraw % 63

/-- `clockMHz` in hertz, as a reference frequency. -/
def Config.clockHz : PNat := ⟨1000000 * Config.clockMHz, by unfold Config.clockMHz; omega⟩

/-- The shape of the boot ROM in this design (R8, R109). -/
def Config.romShape : BlockShape := ⟨Config.dataWidth, Config.dataWidth, Config.romWords⟩

/-- The shape of the working RAM in this design (R8, R109). -/
def Config.ramShape : BlockShape := ⟨Config.dataWidth, Config.dataWidth, Config.ramWords⟩

/-- The configuration record of the instance that `State.reset` is: every open parameter is a free value. -/
def Config.theRecord : Cfg where
  refFreqHz := if Config.requested then Config.anyReferenceHz else Config.clockHz
  refPeriod := Config.refPeriod
  reqFreqHz := if Config.requested then some Config.clockHz else none
  romImage := Config.tabulate Config.romWord Config.romWords 0
  ramInit := []
  romShape := Config.romShape
  ramShape := Config.ramShape
  rwSameAddr := Config.rwSameAddr
  dinReset := Config.dinReset
  waits := ⟨Config.waitsWidth, Config.waitsBits⟩

end Sys2Proof
end

