-- ==== Sys2Proof/Machine/Memory.lean ====
section
/-! DEFINITION. The working RAM as sparse data: (word index, word) pairs in one canonical form, over the array it
was built with (spec/10_state.md R17, R28). The smallest unit is the 16-bit word: the interconnect never splits one
and has no byte order (spec/20_memory.md R40, R41), so a cell is a word, not a byte (log 1). -/

namespace Sys2Proof.Machine

/-- The RAM words that differ from the initial array, by strictly rising word index. -/
abbrev Memory := List (Nat × Word)

/-- What an unlisted word reads as: `RAM_INIT(i)` (R28), the listed word of the record or a free word (log 8). -/
def unlisted (init : List Word) (i : Nat) : Word :=
  match init[i]? with
  | some w => w
  | none => Config.ramWord i

/-- The entry of a word index, if it is listed. -/
def lookup : Memory → Nat → Option Word
  | [], _ => none
  | (j, w) :: m, i => if i = j then some w else lookup m i

/-- `RAM[i]` (R11). -/
def readMem (init : List Word) (m : Memory) (i : Nat) : Word :=
  match lookup m i with
  | some w => w
  | none => unlisted init i

/-- The memory with the entry of index `i` replaced: listed as `some v`, or taken out. -/
def putEntry (m : Memory) (i : Nat) (e : Option Word) : Memory :=
  match m with
  | [] => (e.map (Prod.mk i)).toList
  | (j, w) :: rest =>
    if i < j then (e.map (Prod.mk i)).toList ++ (j, w) :: rest
    else if i = j then (e.map (Prod.mk i)).toList ++ rest
    else (j, w) :: putEntry rest i e

/-- `RAM[i] <- v` (R104). Writing what an unlisted word reads as takes the entry out, so that equal memories are
equal data. -/
def writeMem (init : List Word) (m : Memory) (i : Nat) (v : Word) : Memory :=
  putEntry m i (if v = unlisted init i then none else some v)

/-- The entries from index `lo` on: strictly rising, below 16384, none equal to what an unlisted word reads as. -/
def wfFrom (init : List Word) : Nat → Memory → Bool
  | _, [] => true
  | lo, (j, w) :: m => decide (lo ≤ j) && decide (j < Config.ramWords) && decide (w ≠ unlisted init j) && wfFrom init (j + 1) m

/-- The canonical form. -/
def Memory.wf (init : List Word) (m : Memory) : Bool := wfFrom init 0 m

end Sys2Proof.Machine
end

