-- ==== Sys2Proof/Machine/Peripheral.lean ====
section
/-! DEFINITION. The communications peripheral as the bridge sees it: an opaque hidden state with uninterpreted
`P.sense` and `P.step` (spec/44_cru_bridge.md R118, R122; spec/10_state.md R29). It is an agent of the environment,
not state of the interconnect (log 5). -/

namespace Sys2Proof.Machine

/-- The peripheral's hidden state `P`. -/
inductive PeriphState where
  /-- The black box: a code for its unknown state. Every finite or countable hidden state has one (log 5). -/
  | blackBox (code : Nat)
  /-- The test fixture `LatchPeriph`: 32 one-bit latches, latch k in bit k (R124). No real device (D19, log 6). -/
  | latch (bits : BitVec 32)
deriving DecidableEq, Repr

/-- `bits` with bit `k` at `b`. -/
def setBit (bits : BitVec 32) (k : Nat) (b : Bool) : BitVec 32 :=
  if b then bits ||| BitVec.ofNat 32 (2 ^ k) else bits &&& ~~~BitVec.ofNat 32 (2 ^ k)

/-- `P.sense(P, s)` (R118), for the fixture `L[s]` (R124). -/
def PeriphState.sense (p : PeriphState) (s : CruSub) : Bool :=
  match p with
  | .blackBox c => Config.periphSense c s
  | .latch bits => bits.getLsbD s.toNat

/-- `P.step(P, per_sel, per_cruclk, per_cruout, per_s, reset, rx)` (R118). With `per_sel = 0` the black box does not
see `per_cruclk`, `per_cruout` or `per_s` (R122). The fixture clears on `reset`, sets its latch on a strobe, and else
keeps its latches (R124). -/
def PeriphState.advance (p : PeriphState) (perSel perCruclk perCruout : Bool) (perS : CruSub) (reset rx : Bool) :
    PeriphState :=
  match p with
  | .blackBox c =>
    .blackBox (if perSel then Config.periphStepSelected c perCruclk perCruout perS reset rx
      else Config.periphStepDeselected c reset rx)
  | .latch bits =>
    .latch (if reset then 0 else if perStrobe perSel perCruclk then setBit bits perS.toNat perCruout else bits)

end Sys2Proof.Machine
end

