-- ==== Sys2Proof/Machine/State.lean ====
section
/-! DEFINITION. The state of the model as plain data: the interconnect's `DIN` and `RAM` (spec/10_state.md R13), the
cycle index, the peripheral's hidden state (R29), the configuration record of the instance (R26), and the model's own
fields for the environment's inputs, the outputs driven and the draws used (INVENTORY.md). -/

namespace Sys2Proof.Machine

/-- Why a step stops with a fault. There is no constructor: no cycle vector, address, strobe or data value
makes the interconnect fault (spec/60_exceptions.md R146, R156). Safe: nothing is stopped. -/
inductive Fault where
deriving DecidableEq, Repr

/-- Why a step is refused. -/
inductive Refusal where
  /-- Raised by an arm of `exec` for an operation without a meaning; no arm raises it here. Safe. -/
  | notModelled (mnemonic : String)
deriving DecidableEq, Repr

/-- The output tuple of one cycle that an outside observer sees (spec/45_bus_cycles.md R141, R23, R24). -/
structure Ports where
  /-- `data_in(N) = DIN(N)` (R95). -/
  dataIn : Word
  /-- `cruin(N)` (R118, R119). -/
  cruin : Bool
  /-- `waits(N)`, a constant (R25). -/
  waits : Nat
  /-- `per_sel(N)` (R114). -/
  perSel : Bool
  /-- `per_cruclk(N)` (R115). -/
  perCruclk : Bool
  /-- `per_cruout(N)` (R116). -/
  perCruout : Bool
  /-- `per_s(N)` (R117). -/
  perS : CruSub
deriving DecidableEq, Repr

/-- The state of the model. -/
structure State where
  /-- The instance's configuration record (R26). No step changes it. -/
  cfg : Cfg
  /-- `DIN`, the one register of the block (R16). -/
  din : Word
  /-- `RAM` (R17): the words that differ from `RAM_INIT`. -/
  ram : Memory
  /-- `P`, the peripheral's hidden state (R29). -/
  periph : PeriphState
  /-- The cycle index `N` (R15). -/
  cycle : Nat
  /-- MODEL: the inputs of the coming cycles, the next cycle's first (log 4). -/
  pending : List Inputs
  /-- MODEL: the level of the peripheral's pin `rx` in this cycle (R30, log 16). -/
  rx : Bool
  /-- MODEL: the outputs driven during the last completed cycle (R141, log 16). -/
  ports : Ports
  /-- MODEL: draws `any16` used so far (log 3). -/
  wordDraws : Nat
  /-- MODEL: draws `any1` used so far (log 3). -/
  bitDraws : Nat
deriving DecidableEq, Repr

/-- The outputs before the first cycle: none has been driven. DESIGN CHOICE, log 16. -/
def Ports.initial : Ports := ⟨0, false, 0, false, false, false, 0⟩

/-- The machine right after reset (R27, R28): `DIN` at `DIN_RESET` where that parameter is present, else 0x0000
(DESIGN CHOICE, log 2); RAM at `RAM_INIT`; the peripheral in an unknown state; cycle 0; nothing pending. -/
def State.reset : State where
  cfg := Config.theRecord
  din := Config.theRecord.dinReset.getD 0
  ram := []
  periph := .blackBox (Config.periphPowerUp Config.clockMHz)
  cycle := 0
  pending := []
  rx := false
  ports := Ports.initial
  wordDraws := 0
  bitDraws := 0

end Sys2Proof.Machine
end

