-- ==== Sys2Proof/Machine/Ops.lean ====
section
/-! DEFINITION. The named operations over the state that the meanings share: reading ROM and RAM, writing RAM,
loading `DIN`, driving the CRU bridge's outputs, clocking the peripheral, and the start and end of a cycle.

TAKING AN EXCEPTION and returning from one are not here because the interconnect has neither: it saves no
state, switches no mode, vectors nowhere and has nothing to restore (spec/60_exceptions.md R146, R150, R151). -/

namespace Sys2Proof.Machine

/-! ## Reading -/

/-- `ROM[i] = ROM_IMAGE(i)` (R18). An image without word i is refused at construction (R145); where a state holds
one all the same, the word is free (log 7). -/
def State.romWord (s : State) (i : Nat) : Word :=
  match s.cfg.romImage[i]? with
  | some w => w
  | none => Config.romWord i

/-- `RAM[i]` (R17). -/
def State.ramWord (s : State) (i : Nat) : Word := readMem s.cfg.ramInit s.ram i

/-- `rom_output` for bus address `a` (R98). -/
def State.romOutput (s : State) (a : Word) : Word := s.romWord (romIdx a).toNat

/-- The RAM word that bus address `a` accesses (R36, R105). -/
def State.ramOutput (s : State) (a : Word) : Word := s.ramWord (ramIdx a).toNat

/-- The value of the next draw `any16` (R11, log 3). -/
def State.anyWord (s : State) : Word := Config.anyWord s.wordDraws

/-- The value of the next draw `any1` (R11, log 3). -/
def State.anyBit (s : State) : Bool := Config.anyBit s.bitDraws

/-- What a cycle that reads and writes one RAM word delivers: the old word, or the word written (R106). -/
def State.readDuringWrite (s : State) (a v : Word) : Word :=
  match s.cfg.rwSameAddr with
  | .old => s.ramOutput a
  | .new => v

/-! ## Writing -/

/-- `DIN' <- w` (R89). -/
def State.loadDin (s : State) (w : Word) : State := { s with din := w }

/-- One draw `any16` is used up. -/
def State.spendWord (s : State) : State := { s with wordDraws := s.wordDraws + 1 }

/-- One draw `any1` is used up. -/
def State.spendBit (s : State) : State := { s with bitDraws := s.bitDraws + 1 }

/-- `DIN' <- any16` (R107): the value is free. -/
def State.drawDin (s : State) : State := (s.loadDin s.anyWord).spendWord

/-- The reset of `DIN`, the only register reset reaches: `DIN_RESET` if present, else `any16` (R94). -/
def State.resetDin (s : State) : State :=
  match s.cfg.dinReset with
  | some w => s.loadDin w
  | none => s.drawDin

/-- `RAM'[a[14:1]] <- v`, the other words unchanged (R104). -/
def State.writeRam (s : State) (a v : Word) : State :=
  { s with ram := writeMem s.cfg.ramInit s.ram (ramIdx a).toNat v }

/-- The bridge drives its outputs and `cruin` for this cycle (R114 to R119). -/
def State.driveBridge (s : State) (perSel perCruclk perCruout : Bool) (perS : CruSub) (cruin : Bool) : State :=
  { s with ports := { s.ports with
      cruin := cruin, perSel := perSel, perCruclk := perCruclk, perCruout := perCruout, perS := perS } }

/-- The peripheral is clocked: `P' = P.step(P, …)` with this cycle's `rx` (R118). -/
def State.clockPeriph (s : State) (perSel perCruclk perCruout : Bool) (perS : CruSub) (reset : Bool) : State :=
  { s with periph := s.periph.advance perSel perCruclk perCruout perS reset s.rx }

/-- A CRU-path operation with the peripheral selected: the answer bit is forwarded in the same cycle, from the state
the peripheral has before it is clocked (R118). -/
def State.cruSelected (s : State) (perCruclk perCruout : Bool) (perS : CruSub) (reset : Bool) : State :=
  (s.driveBridge true perCruclk perCruout perS (s.periph.sense perS)).clockPeriph true perCruclk perCruout perS reset

/-- A CRU-path operation with the peripheral not selected: `cruin` is a draw (R119), and the peripheral is clocked
without a select (R118, R122). -/
def State.cruDeselected (s : State) (perCruclk perCruout : Bool) (perS : CruSub) (reset : Bool) : State :=
  ((s.driveBridge false perCruclk perCruout perS s.anyBit).clockPeriph false perCruclk perCruout perS reset).spendBit

/-! ## The cycle -/

/-- The inputs of this cycle: the first pending ones, or what the environment drives of its own (R51, log 4). -/
def State.fetch (s : State) : Inputs :=
  match s.pending with
  | i :: _ => i
  | [] => Config.environment s.cycle s.din s.ports.cruin

/-- The start of a cycle with inputs `i`: they are taken off the pending list, `rx` is sampled, and the outputs that
no operation decides are driven: `data_in = DIN` (R95) and the constant `waits` (R25). -/
def State.beginCycle (s : State) (i : Inputs) : State :=
  { s with
    pending := s.pending.tail
    rx := i.rx
    ports := { s.ports with dataIn := s.din, waits := s.cfg.waits.value } }

/-- The rising clock edge that ends a cycle: the cycle index advances (R15). -/
def State.endCycle (s : State) : State := { s with cycle := s.cycle + 1 }

/-- The state with the inputs `i` to be driven in the very next cycle. -/
def State.drive (s : State) (i : Inputs) : State := { s with pending := i :: s.pending }

/-- Two parts of one cycle, the second from the state the first leaves. -/
def andThen (o : Host.Outcome State Fault Refusal) (f : State → Host.Outcome State Fault Refusal) :
    Host.Outcome State Fault Refusal :=
  match o with
  | .next s => f s
  | .fault r => .fault r
  | .refused r => .refused r

end Sys2Proof.Machine
end

