-- ==== Sys2Proof/Machine/CruCycles.lean ====
section
/-! DEFINITION. The CRU-path operations (spec/45_bus_cycles.md R137 to R139). They touch neither `DIN` nor `RAM`; the
bridge is combinational and holds nothing (spec/44_cru_bridge.md R120, log 15). -/

namespace Sys2Proof.Machine

/-- `CRU.STROBE`: the peripheral is selected and sees the pulse; `cruin = per_cruin` (R137). -/
def execCruStrobe (reset _wr _rd : Bool) (a : Word) (cruout : Bool) (s : State) : Host.Outcome State Fault Refusal :=
  .next (s.cruSelected true cruout (cruSub a) reset)

/-- `CRU.SENSE`: the peripheral is selected without a pulse; `cruin = per_cruin` (R138). -/
def execCruSense (reset _wr _rd : Bool) (a : Word) (cruout : Bool) (s : State) : Host.Outcome State Fault Refusal :=
  .next (s.cruSelected false cruout (cruSub a) reset)

/-- `CRU.OFF`: the peripheral is not selected; a pulse is lost and `cruin` is a draw (R139). -/
def execCruOff (reset cruclk _wr _rd : Bool) (a : Word) (cruout : Bool) (s : State) :
    Host.Outcome State Fault Refusal :=
  .next (s.cruDeselected cruclk cruout (cruSub a) reset)

end Sys2Proof.Machine
end

