-- ==== Sys2Proof/Machine/RamCycles.lean ====
section
/-! DEFINITION. The memory-path operations in the RAM region (spec/45_bus_cycles.md R130 to R133). -/

namespace Sys2Proof.Machine

/-- `RAM.IDLE`: `DIN' <- any16` (R130). -/
def execRamIdle (_cruclk : Bool) (_a : Word) (s : State) : Host.Outcome State Fault Refusal :=
  .next s.drawDin

/-- `RAM.RD`: `DIN' <- RAM(N)[a[14:1]]` (R131). -/
def execRamRd (_cruclk : Bool) (a : Word) (s : State) : Host.Outcome State Fault Refusal :=
  .next (s.loadDin (s.ramOutput a))

/-- `RAM.WR`: `RAM'[a[14:1]] <- v` and `DIN' <- any16` (R132). -/
def execRamWr (_cruclk : Bool) (a v : Word) (s : State) : Host.Outcome State Fault Refusal :=
  .next (s.writeRam a v).drawDin

/-- `RAM.RW`: `RAM'[a[14:1]] <- v`, and `DIN'` is the old or the new word by `RAM_RW_SAME_ADDR` (R133). -/
def execRamRw (_cruclk : Bool) (a v : Word) (s : State) : Host.Outcome State Fault Refusal :=
  .next ((s.writeRam a v).loadDin (s.readDuringWrite a v))

end Sys2Proof.Machine
end

