-- ==== Sys2Proof/Machine/ResetCycles.lean ====
section
/-! DEFINITION. The memory-path operations of a cycle with `reset = 1` (spec/45_bus_cycles.md R134 to R136): `DIN`
takes its reset value and no memory word; a RAM write strobe still writes (D5, log 12). -/

namespace Sys2Proof.Machine

/-- `RST.ROM`: `DIN' <- DIN_RESET` if present, else `any16` (R134). -/
def execRstRom (_cruclk _wr _rd : Bool) (_a : Word) (s : State) : Host.Outcome State Fault Refusal :=
  .next s.resetDin

/-- `RST.RAM`: as `RST.ROM`; with `rd = 1` the RAM word is still not delivered (R135). -/
def execRstRam (_cruclk _rd : Bool) (_a : Word) (s : State) : Host.Outcome State Fault Refusal :=
  .next s.resetDin

/-- `RST.RAMWR`: `DIN` is reset and `RAM'[a[14:1]] <- v` (R136). -/
def execRstRamWr (_cruclk _rd : Bool) (a v : Word) (s : State) : Host.Outcome State Fault Refusal :=
  .next (s.writeRam a v).resetDin

end Sys2Proof.Machine
end

