-- ==== Sys2Proof/Machine/RomCycles.lean ====
section
/-! DEFINITION. The memory-path operations in the ROM region (spec/45_bus_cycles.md R126 to R129). The ROM word is
captured with `rd` 0 or 1 (D16, log 14); a write strobe has no effect on ROM or RAM (R99). -/

namespace Sys2Proof.Machine

/-- `ROM.IDLE`: `DIN' <- ROM[a[12:1]]` (R126). -/
def execRomIdle (_cruclk : Bool) (a : Word) (s : State) : Host.Outcome State Fault Refusal :=
  .next (s.loadDin (s.romOutput a))

/-- `ROM.RD`: `DIN' <- ROM[a[12:1]]` (R127). -/
def execRomRd (_cruclk : Bool) (a : Word) (s : State) : Host.Outcome State Fault Refusal :=
  .next (s.loadDin (s.romOutput a))

/-- `ROM.WR`: `DIN' <- ROM[a[12:1]]`; the word to write is discarded (R128). -/
def execRomWr (_cruclk : Bool) (a _v : Word) (s : State) : Host.Outcome State Fault Refusal :=
  .next (s.loadDin (s.romOutput a))

/-- `ROM.RW`: as `ROM.RD`; the word to write is discarded (R129). -/
def execRomRw (_cruclk : Bool) (a _v : Word) (s : State) : Host.Outcome State Fault Refusal :=
  .next (s.loadDin (s.romOutput a))

end Sys2Proof.Machine
end

