-- ==== Sys2Proof/Machine/Dispatch.lean ====
section
/-! DEFINITION. The effect of one operation: one arm per constructor of Instr, each one direct call of its meaning. -/

namespace Sys2Proof.Machine

def exec (i : Instr) (s : State) : Host.Outcome State Fault Refusal :=
  match i with
  | .romIdle cruclk a => Sys2Proof.Machine.execRomIdle cruclk a s
  | .romRd cruclk a => Sys2Proof.Machine.execRomRd cruclk a s
  | .romWr cruclk a v => Sys2Proof.Machine.execRomWr cruclk a v s
  | .romRw cruclk a v => Sys2Proof.Machine.execRomRw cruclk a v s
  | .ramIdle cruclk a => Sys2Proof.Machine.execRamIdle cruclk a s
  | .ramRd cruclk a => Sys2Proof.Machine.execRamRd cruclk a s
  | .ramWr cruclk a v => Sys2Proof.Machine.execRamWr cruclk a v s
  | .ramRw cruclk a v => Sys2Proof.Machine.execRamRw cruclk a v s
  | .rstRom cruclk wr rd a => Sys2Proof.Machine.execRstRom cruclk wr rd a s
  | .rstRam cruclk rd a => Sys2Proof.Machine.execRstRam cruclk rd a s
  | .rstRamWr cruclk rd a v => Sys2Proof.Machine.execRstRamWr cruclk rd a v s
  | .cruStrobe reset wr rd a cruout => Sys2Proof.Machine.execCruStrobe reset wr rd a cruout s
  | .cruSense reset wr rd a cruout => Sys2Proof.Machine.execCruSense reset wr rd a cruout s
  | .cruOff reset cruclk wr rd a cruout => Sys2Proof.Machine.execCruOff reset cruclk wr rd a cruout s

end Sys2Proof.Machine
end

