-- ==== Sys2Proof/Machine/Step.lean ====
section
/-! DEFINITION. One clock cycle (spec/45_bus_cycles.md R125; spec/30_encoding.md R60): the inputs of the cycle select one
memory-path operation and one CRU-path operation, and both are performed. The two share no state and no output, so
their order does not matter (R125; log 23). -/

namespace Sys2Proof.Machine

/-- One step: one clock cycle, from the inputs that `State.fetch` finds. -/
def step (s : State) : Host.Outcome State Fault Refusal :=
  andThen (andThen (exec (decodeMem s.fetch.bus) (s.beginCycle s.fetch)) (exec (decodeCru s.fetch.bus)))
    fun t => .next t.endCycle

/-- `s` with the cycle of control word `w` to be driven next: the operands and `rx` are zero, nothing else changes
(log 4, log 11). -/
def State.withFetchWord (s : State) (nbits w : Nat) : State :=
  s.drive ⟨vectorOf (BitVec.ofNat 20 (w % 2 ^ nbits)) 0 false, false⟩

end Sys2Proof.Machine
end

