-- ==== Sys2Proof/Machine/Circuits.lean ====
section
/-! DEFINITION. Circuit (b) of spec/42_data_mux.md R96: memories with registered read outputs, a one-bit register that
holds `rom_select`, and a combinational multiplexer after them (R21). The model of `State` is circuit (a)'s observable
result; that the two agree on `data_in` wherever the value is not a draw is a statement for the provers. Only cycles
with `reset = 0` are given: the source says nothing of the latches' reset values (N2). -/

namespace Sys2Proof.Machine

/-- The registers of circuit (b): the two memory output latches, the held `rom_select`, and the RAM array. -/
structure SyncCircuit where
  romLatch : Word
  ramLatch : Word
  selRom : Bool
  ram : Memory
deriving DecidableEq, Repr

/-- `data_in` of circuit (b): a function of its registers only (R96). -/
def syncDataIn (c : SyncCircuit) : Word := if c.selRom then c.romLatch else c.ramLatch

/-- One clock of circuit (b) with `reset = 0`, for the instance of state `s` with the circuit's own array in place of
`s.ram`: each block's latch is loaded when the block is enabled and holds otherwise (R98, R105, R106). -/
def syncClock (s : State) (c : SyncCircuit) (v : CycleVector) : SyncCircuit where
  romLatch := if romSelect v.addr then s.romOutput v.addr else c.romLatch
  ramLatch :=
    if readRamStrobe v.addr v.rd then
      (if writeRamStrobe v.addr v.wr then { s with ram := c.ram }.readDuringWrite v.addr v.dataOut
        else { s with ram := c.ram }.ramOutput v.addr)
    else c.ramLatch
  selRom := romSelect v.addr
  ram := if writeRamStrobe v.addr v.wr then writeMem s.cfg.ramInit c.ram (ramIdx v.addr).toNat v.dataOut else c.ram

/-- Circuit (b) over the cycles of a list. -/
def syncRun (s : State) : List Inputs → SyncCircuit → SyncCircuit
  | [], c => c
  | i :: is, c => syncRun s is (syncClock s c i.bus)

end Sys2Proof.Machine
end

