-- ==== Sys2Proof/Machine/Network.lean ====
section
/-! DEFINITION. The interconnect as the source's network of equations: the whole-cycle step of
spec/45_bus_cycles.md R125, which is the conjunction of the component rules of files 41 to 44. It is written beside the
meanings of the operations, not from them; that `step` is this network is a statement for the provers. -/

namespace Sys2Proof.Machine

/-- `mem_out` of R125; `none` where it is the draw `any16`. -/
def memOut (s : State) (v : CycleVector) : Option Word :=
  if romSelect v.addr then some (s.romOutput v.addr)
  else if readRamStrobe v.addr v.rd && !writeRamStrobe v.addr v.wr then some (s.ramOutput v.addr)
  else if readRamStrobe v.addr v.rd && writeRamStrobe v.addr v.wr then some (s.readDuringWrite v.addr v.dataOut)
  else none

/-- What `DIN` captures at the edge (R89); `none` where it is the draw `any16`. -/
def dinNext (s : State) (v : CycleVector) : Option Word :=
  if v.reset then s.cfg.dinReset else memOut s v

/-- `RAM(N+1)` (R104). -/
def ramNext (s : State) (v : CycleVector) : Memory :=
  if writeRamStrobe v.addr v.wr then writeMem s.cfg.ramInit s.ram (ramIdx v.addr).toNat v.dataOut else s.ram

/-- `cruin(N)` (R118, R119). -/
def cruinOf (s : State) (v : CycleVector) : Bool :=
  if peripheralSelect v.addr then s.periph.sense (cruSub v.addr) else s.anyBit

/-- The output tuple of cycle N (R141), combinational in the inputs of cycle N and the state. -/
def portsOf (s : State) (v : CycleVector) : Ports where
  dataIn := s.din
  cruin := cruinOf s v
  waits := s.cfg.waits.value
  perSel := peripheralSelect v.addr
  perCruclk := v.cruclk
  perCruout := v.cruout
  perS := cruSub v.addr

/-- The state after the cycle with inputs `i` (R125). -/
def networkCycle (s : State) (i : Inputs) : State where
  cfg := s.cfg
  din := (dinNext s i.bus).getD s.anyWord
  ram := ramNext s i.bus
  periph := s.periph.advance (peripheralSelect i.bus.addr) i.bus.cruclk i.bus.cruout (cruSub i.bus.addr) i.bus.reset i.rx
  cycle := s.cycle + 1
  pending := s.pending.tail
  rx := i.rx
  ports := portsOf s i.bus
  wordDraws := if (dinNext s i.bus).isNone then s.wordDraws + 1 else s.wordDraws
  bitDraws := if peripheralSelect i.bus.addr then s.bitDraws else s.bitDraws + 1

end Sys2Proof.Machine
end

