-- ==== Sys2Proof/Machine/Stimulus.lean ====
section
/-! DEFINITION. The stimulus notation for bus cycles (spec/30_encoding.md R65) and the pseudo-operations (R66), as data:
one line is one cycle. It is the spec's own notation (D12); no hardware depends on it. -/

namespace Sys2Proof.Machine

/-- `MEMOP` (R65). -/
inductive MemOp where
  | romIdle | romRd | romWr | romRw
  | ramIdle | ramRd | ramWr | ramRw
  | rstRom | rstRam | rstRamWr
deriving DecidableEq, Repr

/-- `CRUOP` (R65). -/
inductive CruOp where
  /-- `STROBE <bit>`: `cruclk = 1`; `addr[15:6]` must be 0. -/
  | strobe (bit : Bool)
  /-- `SENSE`: `cruclk = 0`; `addr[15:6]` must be 0. -/
  | sense
  /-- `OFF`: `cruclk = 0`; `addr[15:6]` must not be 0. -/
  | off
  /-- `OFF+CLK <bit>`: `cruclk = 1`; `addr[15:6]` must not be 0. -/
  | offClk (bit : Bool)
deriving DecidableEq, Repr

/-- One line: the field form, complete and canonical, or the mnemonic form (R65). -/
inductive Line where
  | field (v : CycleVector)
  | mnemonic (op : MemOp) (addr : Word) (dout : Option Word) (cru : Option CruOp)
deriving DecidableEq, Repr

/-- Why a line is ill-formed (R65). -/
inductive LineError where
  /-- The mnemonic contradicts `addr[15]`. -/
  | regionMismatch
  /-- The CRU part contradicts `addr[15:6]`. -/
  | rangeMismatch
deriving DecidableEq, Repr

/-- The spelling of a `MEMOP`, that of its row's mnemonic. -/
def memOpName : MemOp → String
  | .romIdle => "ROM.IDLE"
  | .romRd => "ROM.RD"
  | .romWr => "ROM.WR"
  | .romRw => "ROM.RW"
  | .ramIdle => "RAM.IDLE"
  | .ramRd => "RAM.RD"
  | .ramWr => "RAM.WR"
  | .ramRw => "RAM.RW"
  | .rstRom => "RST.ROM"
  | .rstRam => "RST.RAM"
  | .rstRamWr => "RST.RAMWR"

/-- The `reset` a `MEMOP` fixes (R56). -/
def memOpReset : MemOp → Bool
  | .rstRom | .rstRam | .rstRamWr => true
  | _ => false

/-- The `wr` a `MEMOP` fixes; where the row leaves it free, 0 (R65). -/
def memOpWr : MemOp → Bool
  | .romWr | .romRw | .ramWr | .ramRw | .rstRamWr => true
  | _ => false

/-- The `rd` a `MEMOP` fixes; where the row leaves it free, 0 (R65). -/
def memOpRd : MemOp → Bool
  | .romRd | .romRw | .ramRd | .ramRw => true
  | _ => false

/-- The `addr[15]` a `MEMOP` requires (R56). -/
def memOpBank : MemOp → Bool
  | .ramIdle | .ramRd | .ramWr | .ramRw | .rstRam | .rstRamWr => true
  | _ => false

/-- The `cruclk` of a `CRUOP`; absent means 0 (R65). -/
def cruOpClk : Option CruOp → Bool
  | some (.strobe _) | some (.offClk _) => true
  | _ => false

/-- The `cruout` of a `CRUOP`: the bit of `STROBE` and `OFF+CLK`, and 0 where the CRU part is absent (R65) and for
`SENSE` (the lines of program P3 in 95_test_vectors.md). For an explicit `OFF` R65 gives `cruclk = 0` only; that `cruout`
is 0 there is a DESIGN CHOICE (log 24). -/
def cruOpOut : Option CruOp → Bool
  | some (.strobe b) => b
  | some (.offClk b) => b
  | _ => false

/-- Whether a `CRUOP` agrees with the range of the address (R65). -/
def cruOpFits (a : Word) : Option CruOp → Bool
  | none => true
  | some (.strobe _) => peripheralSelect a
  | some .sense => peripheralSelect a
  | some .off => !peripheralSelect a
  | some (.offClk _) => !peripheralSelect a

/-- The cycle of a line: its `CW` by R53 and the two operands; an ill-formed line is rejected by name (R65). -/
def assemble : Line → Except LineError CycleVector
  | .field v => .ok v
  | .mnemonic op a dout cru =>
    if memOpBank op != bank a then .error .regionMismatch
    else if !cruOpFits a cru then .error .rangeMismatch
    else .ok ⟨memOpReset op, cruOpClk cru, memOpWr op, memOpRd op, a, dout.getD 0, cruOpOut cru⟩

/-- The pseudo-operations (R66). A bit-register number is 5 bits, so `0 <= k <= 31` holds by type. -/
inductive Pseudo where
  | read (a : Word)
  | write (a v : Word)
  | nop
  | reset
  | setBit (k : CruSub)
  | clrBit (k : CruSub)
  | testBit (k : CruSub)
deriving DecidableEq, Repr

/-- The bus address `2 × k` of bit-register `k` (R66, R44). -/
def bitAddress (k : CruSub) : Word := BitVec.ofNat 16 (2 * k.toNat)

/-- The expansion of a pseudo-operation into its one line (R66). -/
def expand : Pseudo → Line
  | .read a => .mnemonic (if bank a then .ramRd else .romRd) a none none
  | .write a v => .mnemonic (if bank a then .ramWr else .romWr) a (some v) none
  | .nop => .mnemonic .romIdle 0x0040 none none
  | .reset => .mnemonic .rstRom 0x0040 none none
  | .setBit k => .mnemonic .romIdle (bitAddress k) none (some (.strobe true))
  | .clrBit k => .mnemonic .romIdle (bitAddress k) none (some (.strobe false))
  | .testBit k => .mnemonic .romIdle (bitAddress k) none (some .sense)

/-- A bit as the field form writes it. -/
def bitText (b : Bool) : String := if b then "1" else "0"

/-- Four hexadecimal digits, capitals, as the notation writes a word (R65 `<hex16>`). -/
def hexText (w : Word) : String :=
  String.ofList ([12, 8, 4, 0].map fun k => ((Nat.digitChar (w.toNat / 2 ^ k % 16)).toUpper))

/-- The field form of a cycle as text: `CYC reset=… addr=… rd=… wr=… dout=… cruclk=… cruout=…` (R65). -/
def fieldText (v : CycleVector) : String :=
  "CYC reset=" ++ bitText v.reset ++ " addr=" ++ hexText v.addr ++ " rd=" ++ bitText v.rd ++ " wr=" ++ bitText v.wr
    ++ " dout=" ++ hexText v.dataOut ++ " cruclk=" ++ bitText v.cruclk ++ " cruout=" ++ bitText v.cruout

end Sys2Proof.Machine
end

