-- ==== Sys2Proof/Machine/Clock.lean ====
section
/-! DEFINITION. The clock-domain manager (spec/40_clock_config.md R67 to R76). It acts once, before time zero. The notice
it prints has no effect and is omitted (R73). -/

namespace Sys2Proof.Machine

/-- The two clocking modes (R68, R69). -/
inductive ClockMode where
  | passThrough
  | synthesized
deriving DecidableEq, Repr

/-- What the manager produces: the mode, `EFF_FREQ_HZ` and `BAUD_PARAM` (R67, R71). -/
structure ClockSetting where
  mode : ClockMode
  effHz : Int
  baud : Nat
deriving DecidableEq, Repr

/-- The mode: pass-through if no frequency is requested or it is the reference (R68), else synthesized (R69). -/
def clockMode (ref : Int) (req : Option Int) : ClockMode :=
  match req with
  | none => .passThrough
  | some r => if r = ref then .passThrough else .synthesized

/-- `EFF_FREQ_HZ` (R68, R69). -/
def effectiveHz (ref : Int) (req : Option Int) : Int :=
  match clockMode ref req, req with
  | .synthesized, some r => r
  | _, _ => ref

/-- The validity check: positive, a multiple of 1 MHz, below 64 MHz (R70). -/
def legalFrequency (eff : Int) : Bool :=
  decide (0 < eff) && decide (eff % Config.freqUnitHz = 0) && decide (eff < Config.freqLimitHz)

/-- `BAUD_PARAM = EFF_FREQ_HZ DIV 1000000` (R71). -/
def baudParam (eff : Int) : Nat := (eff / Config.freqUnitHz).toNat

/-- The whole manager (R76). `BAUD_PARAM` is computed only after the check (R72). -/
def clockConfig (ref : Int) (req : Option Int) : Except ConfigError ClockSetting :=
  if legalFrequency (effectiveHz ref req) then
    .ok ⟨clockMode ref req, effectiveHz ref req, baudParam (effectiveHz ref req)⟩
  else .error .badFrequency

end Sys2Proof.Machine
end

