-- ==== Sys2Proof/Machine/Construct.lean ====
section
/-! DEFINITION. Construction of an instance from a configuration record (spec/60_exceptions.md R142 to R147;
spec/70_reset_and_hazards.md R163). A `ConfigError` refuses the record: there is no state and no step then. -/

namespace Sys2Proof.Machine

/-- The two widths of a block match (R109). -/
def widthsMatch (b : BlockShape) : Bool := b.readWidth == b.writeWidth

/-- The block has a size (R110). -/
def hasSize (b : BlockShape) : Bool := b.depth != 0

/-- The ROM image has exactly 4096 words (R100, R145). -/
def imageComplete (cfg : Cfg) : Bool := cfg.romImage.length == Config.romWords

/-- The checks of the memory blocks, in the order of R147. -/
def checkBlocks (cfg : Cfg) : Except ConfigError Unit :=
  if !(widthsMatch cfg.romShape && widthsMatch cfg.ramShape) then .error .widthMismatch
  else if !(hasSize cfg.romShape && hasSize cfg.ramShape && imageComplete cfg) then .error .malformedConfig
  else .ok ()

/-- The state at time zero of the instance built from `cfg` (R28): `RAM = RAM_INIT`, `DIN(0)` the power-up word
`din0`, which is any word, and the peripheral built with `BAUD_PARAM` (R71). -/
def timeZero (cfg : Cfg) (baud : Nat) (din0 : Word) : State where
  cfg := cfg
  din := din0
  ram := []
  periph := .blackBox (Config.periphPowerUp baud)
  cycle := 0
  pending := []
  rx := false
  ports := Ports.initial
  wordDraws := 0
  bitDraws := 0

/-- Construction (R72, R163): the frequency is checked before `BAUD_PARAM` is handed on and the blocks are built. -/
def construct (cfg : Cfg) (din0 : Word) : Except ConfigError State :=
  match clockConfig cfg.refFreqHz cfg.reqFreqHz with
  | .error e => .error e
  | .ok clock =>
    match checkBlocks cfg with
    | .error e => .error e
    | .ok () => .ok (timeZero cfg clock.baud din0)

end Sys2Proof.Machine
end

