-- ==== Sys2Proof/Safety.lean ====
section
/-! DEFINITION. What counts as a good state and a safe run, in the terms the statements use. No run of this hardware
stops (spec/60_exceptions.md R156), so a run is safe when what the processor samples is determined
(spec/70_reset_and_hazards.md R164, R167, R168). -/

namespace Sys2Proof.Safety

open Sys2Proof.Machine

/-- The configuration record passes every check of construction (R142): an instance with it exists. -/
def legalCfg (cfg : Cfg) : Bool :=
  legalFrequency (effectiveHz cfg.refFreqHz cfg.reqFreqHz) && widthsMatch cfg.romShape && widthsMatch cfg.ramShape
    && hasSize cfg.romShape && hasSize cfg.ramShape && imageComplete cfg

/-- The invariant of the machine: its configuration could be constructed, and its RAM lists words 0 to 16383 only, in
canonical form. -/
def Inv (s : State) : Prop := legalCfg s.cfg = true ∧ Memory.wf s.cfg.ramInit s.ram = true

/-- The run in which the environment drives the listed inputs, one list entry a cycle. -/
def runDriven : List Inputs → State → Host.Outcome State Fault Refusal
  | [], s => .next s
  | i :: is, s =>
    match step (s.drive i) with
    | .next t => runDriven is t
    | .fault r => .fault r
    | .refused r => .refused r

/-- Whether a cycle strobes a write of RAM word `k` (R104). -/
def writesWord (k : RamIndex) (v : CycleVector) : Bool :=
  writeRamStrobe v.addr v.wr && ramIdx v.addr == k

/-- The word that the last write of RAM word `k` in a list of cycles stored, `w` if none wrote it (R46). -/
def lastWritten (k : RamIndex) : List Inputs → Word → Word
  | [], w => w
  | i :: is, w => lastWritten k is (if writesWord k i.bus then i.bus.dataOut else w)

/-- Whether the `data_in` of the next cycle is no draw (R94, R107): not a reset cycle of an instance without
`DIN_RESET`, and not a cycle that selects the RAM with `rd = 0`. -/
def dataInDetermined (cfg : Cfg) (v : CycleVector) : Bool :=
  if v.reset then cfg.dinReset.isSome else romSelect v.addr || v.rd

/-- Whether the `data_in` of the next cycle is the same word whatever `RAM_RW_SAME_ADDR` and the draws are: also
no same-cycle read and write of RAM, and no reset cycle (R167). -/
def portableRead (v : CycleVector) : Bool :=
  !v.reset && (romSelect v.addr || (v.rd && !v.wr))

end Sys2Proof.Safety
end

