-- ==== Sys2Proof/Certificates/Slice0/Obligations.lean ====
section
/-! DEFINITION. The statements about the interconnect, for the provers. Each docstring names the rule or the section of
spec/ it formalises, and the log entry where a clause rests on a choice. A whole-record equation
`{ s with … }` says that every field it does not name is unchanged. -/

open Sys2Proof Sys2Proof.Machine Sys2Proof.Safety

/-! ## The cycle and its decode -/

/-- 30_encoding.md R60 and 45_bus_cycles.md R125: a driven cycle performs the memory-path and the CRU-path operation its vector
decodes to, both well formed, from the state in which `rx` is sampled and `data_in` and `waits` are driven, and then
the cycle index advances; with nothing pending the environment drives the cycle (log 4). -/
def Obligations.StepRunsTheDecodedOperations : Prop :=
  (∀ (s : State) (i : Inputs), (decodeMem i.bus).wellFormed = true ∧ (decodeCru i.bus).wellFormed = true ∧
    ∃ t u : State,
      exec (decodeMem i.bus)
        { s with rx := i.rx, ports := { s.ports with dataIn := s.din, waits := s.cfg.waits.value } } = .next t ∧
      exec (decodeCru i.bus) t = .next u ∧
      step (s.drive i) = .next { u with cycle := u.cycle + 1 }) ∧
  (∀ s : State, s.pending = [] →
    step s = step (s.drive (Config.environment s.cycle s.din s.ports.cruin)))

/-- 95_test_vectors.md T-ENC: words written out bit by bit decode to the operations the spec's table names. -/
def Obligations.NamedControlWordsDecode : Prop :=
  decode 0b00010111111111111111 =
    .ok (.romRd false 0x7FFF, .cruOff false false false true 0x7FFF false) ∧
  decode 0b00100000000000010000 =
    .ok (.romWr false 0x0010 0, .cruSense false true false 0x0010 false) ∧
  decode 0b00111000000000000000 =
    .ok (.ramRw false 0x8000 0, .cruOff false false true true 0x8000 false) ∧
  decode 0b10111000000000000010 =
    .ok (.rstRamWr false true 0x8002 0, .cruOff true false true true 0x8002 false) ∧
  decode 0b01010000000000000010 =
    .ok (.romRd true 0x0002, .cruStrobe false false true 0x0002 false) ∧
  decode 0b01000000000001000000 =
    .ok (.romIdle true 0x0040, .cruOff false true false false 0x0040 false) ∧
  decode 0x100000 = .error (.widerThanControlWord 0x100000)

/-- R53 and R56 to R58: a well-formed operation is recovered, every operand at every value, from its 20-bit control word
and its two operands. -/
def Obligations.DecodeOfEncodeIsTheOperation : Prop :=
  ∀ i : Instr, i.wellFormed = true →
    decodeAs i.format (vectorOf (encodeWord i) (encode i).dataOut (encode i).cruout) = i

/-- R53, R60, R62: either decode of any cycle vector is a well-formed operation of its format whose control word is the
vector's, so no control bit is lost; the packing of a vector loses nothing. -/
def Obligations.EncodeOfDecodeIsTheControlWord : Prop :=
  ∀ v : CycleVector,
    vectorOf (controlWord v) v.dataOut v.cruout = v ∧
    (decodeMem v).format = .mem ∧ (decodeMem v).wellFormed = true ∧ encodeWord (decodeMem v) = controlWord v ∧
    (decodeCru v).format = .cru ∧ (decodeCru v).wellFormed = true ∧ encodeWord (decodeCru v) = controlWord v

/-- 30_encoding.md section 3 (R56, which the spec marks as derived): each control word matches exactly one memory-path row,
and the decoder's operation carries that row's mnemonic. -/
def Obligations.MemoryRowsPartitionControlWords : Prop :=
  ∀ (cw : ControlWord) (d : Word) (b : Bool), ∃ r ∈ memRows,
    r.covers cw = true ∧ (decodeMem (vectorOf cw d b)).mnemonic = r.mnemonic ∧
    ∀ r' ∈ memRows, r'.covers cw = true → r' = r

/-- 30_encoding.md section 4 (R57, R58, marked derived there): each control word matches exactly one of the twelve CRU-path
rows, ten of which are `CRU.OFF`, and the decoder's operation carries that row's mnemonic. -/
def Obligations.CruRowsPartitionControlWords : Prop :=
  ∀ (cw : ControlWord) (d : Word) (b : Bool), ∃ r ∈ cruRows,
    r.covers cw = true ∧ (decodeCru (vectorOf cw d b)).mnemonic = r.mnemonic ∧
    ∀ r' ∈ cruRows, r'.covers cw = true → r' = r

/-- 30_encoding.md section 5 (R60, marked derived there): the pairs of mnemonics that occur are the five `ROM.*` and
`RST.ROM` operations with any CRU operation, and the six RAM-region operations with `CRU.OFF`: 21 pairs. -/
def Obligations.ReachableOperationPairs : Prop :=
  (∀ v : CycleVector,
    ((decodeMem v).mnemonic, (decodeCru v).mnemonic) ∈
      (["ROM.IDLE", "ROM.RD", "ROM.WR", "ROM.RW", "RST.ROM"].product ["CRU.STROBE", "CRU.SENSE", "CRU.OFF"]
        ++ ["RAM.IDLE", "RAM.RD", "RAM.WR", "RAM.RW", "RST.RAM", "RST.RAMWR"].product ["CRU.OFF"])) ∧
  (∀ p ∈ (["ROM.IDLE", "ROM.RD", "ROM.WR", "ROM.RW", "RST.ROM"].product ["CRU.STROBE", "CRU.SENSE", "CRU.OFF"]
        ++ ["RAM.IDLE", "RAM.RD", "RAM.WR", "RAM.RW", "RST.RAM", "RST.RAMWR"].product ["CRU.OFF"]),
    ∃ v : CycleVector, ((decodeMem v).mnemonic, (decodeCru v).mnemonic) = p)

/-- The host's table interface (log 11): any 20-bit word names one of the two operations of its cycle, and the very next
step runs that cycle to its end. -/
def Obligations.TableWordRunsNext : Prop :=
  ∀ (s : State) (w : Nat), w < 2 ^ 20 →
    ∃ (v : CycleVector) (i : Instr) (t : State),
      v = vectorOf (BitVec.ofNat 20 w) 0 false ∧
      decodeTableWord 24 w = some i ∧ (i = decodeMem v ∨ i = decodeCru v) ∧
      step (s.withFetchWord 24 w) = step (s.drive ⟨v, false⟩) ∧ step (s.withFetchWord 24 w) = .next t

/-! ## The address decoder -/

/-- 41_address_decoder.md R84: exactly one of the two selects is true, it is determined by bit 15 alone, and the two RAM
strobes are 1 only where `rom_select` is 0. -/
def Obligations.RomAndRamSelectsPartition : Prop :=
  ∀ a : Word, xor (romSelect a) (ramSelect a) = true ∧
    (∀ b : Word, a.getLsbD 15 = b.getLsbD 15 → romSelect a = romSelect b ∧ ramSelect a = ramSelect b) ∧
    (∀ strobe : Bool, writeRamStrobe a strobe = true ∨ readRamStrobe a strobe = true → romSelect a = false)

/-- 41_address_decoder.md R85: `peripheral_select` depends only on bits 6 to 15 of the address. -/
def Obligations.PeripheralSelectDependsOnHighBitsOnly : Prop :=
  ∀ a b : Word, (∀ k, 6 ≤ k → k ≤ 15 → a.getLsbD k = b.getLsbD k) → peripheralSelect a = peripheralSelect b

/-- 41_address_decoder.md R83: all five signals have the same value for `a` and for `a XOR 1`. -/
def Obligations.DecoderIgnoresBitZero : Prop :=
  ∀ (a : Word) (rd wr : Bool),
    romSelect (a ^^^ 1) = romSelect a ∧ ramSelect (a ^^^ 1) = ramSelect a ∧
    writeRamStrobe (a ^^^ 1) wr = writeRamStrobe a wr ∧ readRamStrobe (a ^^^ 1) rd = readRamStrobe a rd ∧
    peripheralSelect (a ^^^ 1) = peripheralSelect a

/-- 41_address_decoder.md section 4, the decode table, in numbers: 0x0000 to 0x003F selects the peripheral, below 0x8000 the
ROM, from 0x8000 on the RAM, and only there the strobes pass. -/
def Obligations.DecodeTableInAddresses : Prop :=
  ∀ (a : Word) (rd wr : Bool),
    (romSelect a = true ↔ a.toNat < 0x8000) ∧ (ramSelect a = true ↔ 0x8000 ≤ a.toNat) ∧
    (writeRamStrobe a wr = true ↔ 0x8000 ≤ a.toNat ∧ wr = true) ∧
    (readRamStrobe a rd = true ↔ 0x8000 ≤ a.toNat ∧ rd = true) ∧
    (peripheralSelect a = true ↔ a.toNat < 0x40)

/-- 20_memory.md section 4 (R37): an odd address acts in every way as the even one below it, for the whole cycle. -/
def Obligations.OddAddressActsAsEvenAddress : Prop :=
  ∀ (s : State) (i : Inputs),
    step (s.drive { i with bus := { i.bus with addr := i.bus.addr ^^^ 1 } }) = step (s.drive i)

/-! ## The memory-path operations -/

/-- 45_bus_cycles.md section 2 (R126 to R129, marked derived there; word index by D1, log 13; `rd` ignored by D16, log 14):
each ROM operation loads `DIN` with the word of the 4096-word image at index (address / 2) mod 4096, drops any word to
write, and changes nothing else. -/
def Obligations.RomCyclesLoadTheRomWord : Prop :=
  ∀ (s : State) (c : Bool) (a v : Word), s.cfg.romImage.length = 4096 →
    ∃ w : Word, s.cfg.romImage[a.toNat / 2 % 4096]? = some w ∧
      exec (.romIdle c a) s = .next { s with din := w } ∧
      exec (.romRd c a) s = .next { s with din := w } ∧
      exec (.romWr c a v) s = .next { s with din := w } ∧
      exec (.romRw c a v) s = .next { s with din := w }

/-- 45_bus_cycles.md section 3 (R130, marked derived there; R107 is decision D3, log 3): `RAM.IDLE` loads `DIN` with a word
that nothing here determines, uses one draw up, and changes nothing else. -/
def Obligations.RamIdleLeavesDinFree : Prop :=
  ∀ (s : State) (c : Bool) (a : Word), ∃ w : Word,
    exec (.ramIdle c a) s = .next { s with din := w, wordDraws := s.wordDraws + 1 }

/-- 45_bus_cycles.md section 3 (R131, marked derived there): `RAM.RD` loads `DIN` with the RAM word at index (address / 2)
mod 16384, which is the listed word or `RAM_INIT` of the index, and changes nothing else. -/
def Obligations.RamReadLoadsTheRamWord : Prop :=
  ∀ (s : State) (c : Bool) (a : Word),
    exec (.ramRd c a) s = .next { s with din := s.ramWord (a.toNat / 2 % 16384) } ∧
    (lookup s.ram (a.toNat / 2 % 16384) = none →
      ∀ w, s.cfg.ramInit[a.toNat / 2 % 16384]? = some w → s.ramWord (a.toNat / 2 % 16384) = w)

/-- 45_bus_cycles.md section 3 (R132, marked derived there): `RAM.WR` stores all 16 bits of the word at the addressed
index, leaves every other RAM word, and leaves `DIN` to a draw; nothing else changes. -/
def Obligations.RamWriteStoresOneWord : Prop :=
  ∀ (s : State) (c : Bool) (a v : Word), Memory.wf s.cfg.ramInit s.ram = true →
    ∃ (m : Memory) (w : Word),
      exec (.ramWr c a v) s = .next { s with ram := m, din := w, wordDraws := s.wordDraws + 1 } ∧
      readMem s.cfg.ramInit m (ramIdx a).toNat = v ∧ (ramIdx a).toNat = a.toNat / 2 % 16384 ∧
      ∀ j, j ≠ (ramIdx a).toNat → readMem s.cfg.ramInit m j = s.ramWord j

/-- 45_bus_cycles.md section 3 (R133; `RAM_RW_SAME_ADDR` is decision D2, log 9): `RAM.RW` always writes, and `DIN` takes the
old word under `OLD` and the written word under `NEW`; nothing else changes. -/
def Obligations.RamReadWriteArbitration : Prop :=
  ∀ (s : State) (c : Bool) (a v : Word), Memory.wf s.cfg.ramInit s.ram = true →
    ∃ (m : Memory) (w : Word),
      exec (.ramRw c a v) s = .next { s with ram := m, din := w } ∧
      (s.cfg.rwSameAddr = .old → w = s.ramWord (ramIdx a).toNat) ∧ (s.cfg.rwSameAddr = .new → w = v) ∧
      (v = s.ramWord (ramIdx a).toNat → w = v) ∧
      readMem s.cfg.ramInit m (ramIdx a).toNat = v ∧ (ramIdx a).toNat = a.toNat / 2 % 16384 ∧
      ∀ j, j ≠ (ramIdx a).toNat → readMem s.cfg.ramInit m j = s.ramWord j

/-- 45_bus_cycles.md section 4 (R134, R135; the reset value is decision D4, log 2 and log 3): `RST.ROM` and `RST.RAM` load
`DIN` with `DIN_RESET` where it is present, else with a draw, and change nothing else. -/
def Obligations.ResetCyclesResetDinOnly : Prop :=
  ∀ (s : State) (c wr rd : Bool) (a : Word),
    (∀ w, s.cfg.dinReset = some w →
      exec (.rstRom c wr rd a) s = .next { s with din := w } ∧
      exec (.rstRam c rd a) s = .next { s with din := w }) ∧
    (s.cfg.dinReset = none → ∃ w,
      exec (.rstRom c wr rd a) s = .next { s with din := w, wordDraws := s.wordDraws + 1 } ∧
      exec (.rstRam c rd a) s = .next { s with din := w, wordDraws := s.wordDraws + 1 })

/-- 45_bus_cycles.md section 4 (R136, a decision of the spec, D5, log 12): `RST.RAMWR` resets `DIN` and stores the word, although
reset is asserted; every other RAM word and every other field is unchanged. -/
def Obligations.ResetCycleStillWritesRam : Prop :=
  ∀ (s : State) (c rd : Bool) (a v : Word), Memory.wf s.cfg.ramInit s.ram = true →
    ∃ (m : Memory) (w : Word) (n : Nat),
      exec (.rstRamWr c rd a v) s = .next { s with ram := m, din := w, wordDraws := n } ∧
      (∀ d, s.cfg.dinReset = some d → w = d ∧ n = s.wordDraws) ∧
      (s.cfg.dinReset = none → n = s.wordDraws + 1) ∧
      readMem s.cfg.ramInit m (ramIdx a).toNat = v ∧ (ramIdx a).toNat = a.toNat / 2 % 16384 ∧
      ∀ j, j ≠ (ramIdx a).toNat → readMem s.cfg.ramInit m j = s.ramWord j

/-! ## The CRU-path operations -/

/-- 45_bus_cycles.md section 5 (R137, R138, marked derived there): `CRU.STROBE` and `CRU.SENSE` select the peripheral, pass the
pulse or its absence, the data bit and the sub-address (address / 2) mod 32, forward the answer of the
peripheral's state before the edge, and clock the peripheral; nothing else changes. -/
def Obligations.SelectedCruCycleRoutesTheBit : Prop :=
  ∀ (s : State) (reset wr rd : Bool) (a : Word) (out : Bool),
    (cruSub a).toNat = a.toNat / 2 % 32 ∧
    exec (.cruStrobe reset wr rd a out) s = .next { s with
      periph := s.periph.advance true true out (cruSub a) reset s.rx
      ports := { s.ports with
        cruin := s.periph.sense (cruSub a), perSel := true, perCruclk := true, perCruout := out, perS := cruSub a } } ∧
    exec (.cruSense reset wr rd a out) s = .next { s with
      periph := s.periph.advance true false out (cruSub a) reset s.rx
      ports := { s.ports with
        cruin := s.periph.sense (cruSub a), perSel := true, perCruclk := false, perCruout := out, perS := cruSub a } }

/-- 45_bus_cycles.md section 5 (R139, marked derived there; `cruin` is decision D9, log 3; that `per_cruclk` passes the
pulse ungated is R115, decision D8, log 26): `CRU.OFF` does not select the
peripheral, `cruin` is a bit that nothing here determines, and the peripheral is clocked as it would be whatever pulse,
data bit and address the cycle carries; nothing else changes. -/
def Obligations.UnselectedCruCycleDropsThePulse : Prop :=
  ∀ (s : State) (reset clk wr rd : Bool) (a : Word) (out : Bool),
    ∃ (b : Bool) (p : PeriphState),
      exec (.cruOff reset clk wr rd a out) s = .next { s with
        periph := p
        bitDraws := s.bitDraws + 1
        ports := { s.ports with
          cruin := b, perSel := false, perCruclk := clk, perCruout := out, perS := cruSub a } } ∧
      ∀ (clk' wr' rd' : Bool) (a' : Word) (out' : Bool) (t : State),
        exec (.cruOff reset clk' wr' rd' a' out') s = .next t → t.periph = p

/-- 44_cru_bridge.md section 5 (R124, the test fixture, log 6): with `LatchPeriph` a `CRU.STROBE` without reset sets the
addressed latch to the data bit and no other; `CRU.SENSE` and `CRU.OFF`, with a pulse or without, keep every latch
without reset; and with reset all three clear all latches. -/
def Obligations.LatchFixtureSetsOneLatch : Prop :=
  ∀ (s : State) (bits : BitVec 32) (reset clk wr rd : Bool) (a : Word) (out : Bool), s.periph = .latch bits →
    (∃ (t : State) (bits' : BitVec 32), exec (.cruStrobe reset wr rd a out) s = .next t ∧ t.periph = .latch bits' ∧
      ∀ k < 32, bits'.getLsbD k =
        if reset then false else if k = a.toNat / 2 % 32 then out else bits.getLsbD k) ∧
    (∃ t : State, exec (.cruSense reset wr rd a out) s = .next t ∧
      t.periph = .latch (if reset then 0 else bits)) ∧
    (∃ t : State, exec (.cruOff reset clk wr rd a out) s = .next t ∧
      t.periph = .latch (if reset then 0 else bits))

/-! ## The whole cycle -/

/-- 45_bus_cycles.md section 1 (R125, marked derived there): one step is the whole-cycle network of equations, for every state and
every input: the per-operation meanings and the component rules describe the same machine. A write strobe in a reset
cycle writes in both (decision D5, log 12), `per_cruclk` is ungated in both (D8, log 26), and the counts of draws are
the model's own fields (log 3). -/
def Obligations.StepIsTheNetwork : Prop :=
  ∀ s : State, step s = .next (networkCycle s s.fetch)

/-- 60_exceptions.md section 2 (R146, R156): no run stops: every driven run ends in a next state, after as many cycles as it has
inputs, with the configuration it began with. -/
def Obligations.RunsNeverStop : Prop :=
  ∀ (is : List Inputs) (s : State), ∃ t : State,
    runDriven is s = .next t ∧ t.cycle = s.cycle + is.length ∧ t.cfg = s.cfg ∧ t.pending = s.pending

/-- A driven run is the host's run of the machine with the same inputs pending. -/
def Obligations.DrivenRunIsTheMachinesRun : Prop :=
  ∀ (is : List Inputs) (s : State),
    Host.Core.run core is.length { s with pending := is ++ s.pending } = runDriven is s

/-- 45_bus_cycles.md section 1 and 20_memory.md R47: the memory-path and the CRU-path operation of a cycle can be performed in
either order, with the same result, whatever the two operations are. -/
def Obligations.MemoryAndCruPathsCommute : Prop :=
  ∀ (s : State) (m c : Instr), m.format = .mem → c.format = .cru →
    andThen (exec m s) (exec c) = andThen (exec c s) (exec m)

/-- 44_cru_bridge.md section 4 (R121) and 42_data_mux.md R93: what the memory path leaves in `DIN` and RAM does not depend on the
CRU inputs, the peripheral or `rx`, where the cycle finds the same count of draws (log 3). -/
def Obligations.MemoryPathIgnoresCru : Prop :=
  ∀ (s s' t t' : State) (i i' : Inputs),
    s.cfg = s'.cfg → s.ram = s'.ram → s.wordDraws = s'.wordDraws →
    i.bus.reset = i'.bus.reset → i.bus.wr = i'.bus.wr → i.bus.rd = i'.bus.rd → i.bus.addr = i'.bus.addr →
    i.bus.dataOut = i'.bus.dataOut →
    step (s.drive i) = .next t → step (s'.drive i') = .next t' →
    t.din = t'.din ∧ t.ram = t'.ram ∧ t.wordDraws = t'.wordDraws

/-- 44_cru_bridge.md section 4 (R121): what the CRU path drives and what the peripheral becomes does not depend on `rd`, `wr`,
`data_out`, `DIN`, RAM or the configuration, where the cycle finds the same count of draws (log 3). -/
def Obligations.CruPathIgnoresMemory : Prop :=
  ∀ (s s' t t' : State) (i i' : Inputs),
    s.periph = s'.periph → s.bitDraws = s'.bitDraws →
    i.bus.reset = i'.bus.reset → i.bus.cruclk = i'.bus.cruclk → i.bus.addr = i'.bus.addr →
    i.bus.cruout = i'.bus.cruout → i.rx = i'.rx →
    step (s.drive i) = .next t → step (s'.drive i') = .next t' →
    t.periph = t'.periph ∧ t.bitDraws = t'.bitDraws ∧ t.ports.cruin = t'.ports.cruin ∧
    t.ports.perSel = t'.ports.perSel ∧ t.ports.perCruclk = t'.ports.perCruclk ∧
    t.ports.perCruout = t'.ports.perCruout ∧ t.ports.perS = t'.ports.perS

/-- 45_bus_cycles.md section 6 (R141) with R23 to R25 and R114 to R119: the output tuple of a cycle. `data_in` is `DIN` as
the cycle finds it and depends on no input of the cycle; `waits` is the constant (D7, log 9); `per_cruclk` is the raw
pulse at every address, ungated also where the peripheral is not selected (R115, decision D8, log 26). -/
def Obligations.OutputsOfOneCycle : Prop :=
  ∀ (s : State) (i : Inputs), ∃ t : State, step (s.drive i) = .next t ∧
    t.ports.dataIn = s.din ∧ t.ports.waits = s.cfg.waits.value ∧
    (t.ports.perSel = true ↔ i.bus.addr.toNat < 0x40) ∧ t.ports.perCruclk = i.bus.cruclk ∧
    t.ports.perCruout = i.bus.cruout ∧ t.ports.perS.toNat = i.bus.addr.toNat / 2 % 32 ∧
    (i.bus.addr.toNat < 0x40 → t.ports.cruin = s.periph.sense t.ports.perS)

/-- 42_data_mux.md R95: `data_in(N) = DIN(N)` for every cycle, whatever its inputs are. -/
def Obligations.DataInIsTheDinRegister : Prop :=
  ∀ (s : State) (i : Inputs), ∃ t : State, step (s.drive i) = .next t ∧ t.ports.dataIn = s.din

/-- 44_cru_bridge.md R114, R116, R117: in every cycle the bridge drives the select of the compared field `addr[15:6]`, the data
bit ungated, and the sub-address `addr[5:1]`; for bus addresses below 0x0040 that is the address divided by 2. -/
def Obligations.BridgeRoutesSelectDataAndSubaddress : Prop :=
  ∀ (s : State) (i : Inputs), ∃ t : State, step (s.drive i) = .next t ∧
    t.ports.perSel = peripheralSelect i.bus.addr ∧
    (t.ports.perSel = true ↔ ∀ k, 6 ≤ k → k ≤ 15 → i.bus.addr.getLsbD k = false) ∧
    t.ports.perCruout = i.bus.cruout ∧
    (∀ k < 5, t.ports.perS.getLsbD k = i.bus.addr.getLsbD (k + 1)) ∧
    (i.bus.addr.toNat < 0x40 → t.ports.perS.toNat = i.bus.addr.toNat / 2)

/-- 43_memory_blocks.md section 2 (R104; that reset does not block the write is decision D5, log 12): at every clock edge a write strobe stores `data_out` in the addressed word and in no other, with
`rd`, `reset` and `cruclk` at any value; without it RAM is unchanged. -/
def Obligations.RamWriteRule : Prop :=
  ∀ (s : State) (i : Inputs), Memory.wf s.cfg.ramInit s.ram = true → ∃ t : State, step (s.drive i) = .next t ∧
    (writeRamStrobe i.bus.addr i.bus.wr = true →
      t.ramWord (ramIdx i.bus.addr).toNat = i.bus.dataOut ∧
      ∀ j, j ≠ (ramIdx i.bus.addr).toNat → t.ramWord j = s.ramWord j) ∧
    (writeRamStrobe i.bus.addr i.bus.wr = false → t.ram = s.ram ∧ ∀ j, t.ramWord j = s.ramWord j)

/-- 43_memory_blocks.md R105: in a cycle with the read strobe and without the write strobe (and without reset, R89) the addressed
word is the RAM's output, and it is on `data_in` in the next cycle, whatever that cycle is. -/
def Obligations.RamReadRule : Prop :=
  ∀ (s : State) (i j : Inputs),
    i.bus.reset = false → readRamStrobe i.bus.addr i.bus.rd = true → writeRamStrobe i.bus.addr i.bus.wr = false →
    ∃ t u : State, step (s.drive i) = .next t ∧ step (t.drive j) = .next u ∧
      t.din = s.ramWord (ramIdx i.bus.addr).toNat ∧ u.ports.dataIn = s.ramWord (ramIdx i.bus.addr).toNat

/-- 20_memory.md R49 (marked derived there; D1, log 13): with the modulus on the word address, reading ROM address `a` is
reading `2 × ((a DIV 2) MOD 4096)`, and two ROM addresses name the same word of every image exactly when their bits 12
to 1 agree. -/
def Obligations.RomMirrorsEvery4096Words : Prop :=
  (∀ (s : State) (c : Bool) (a : Word),
    exec (.romRd c a) s = exec (.romRd c (BitVec.ofNat 16 (2 * (a.toNat / 2 % 4096)))) s) ∧
  (∀ a b : Word, (∀ s : State, s.romOutput a = s.romOutput b) ↔ a.toNat / 2 % 4096 = b.toNat / 2 % 4096)

/-! ## Runs -/

/-- 43_memory_blocks.md section 1 (R99; which word of the image an address reads is R35, decision D1, log 13): no run,
whatever it writes, changes a subsequent read of a ROM address, which delivers the word of the image the record held
before the run, and a cycle in the ROM region leaves RAM unchanged, whatever its strobes. -/
def Obligations.RomIsImmuneToWrites : Prop :=
  (∀ (is : List Inputs) (s t : State) (c : Bool) (a : Word), s.cfg.romImage.length = 4096 →
    runDriven is s = .next t →
    ∃ w u, s.cfg.romImage[a.toNat / 2 % 4096]? = some w ∧ exec (.romRd c a) t = .next u ∧ u.din = w) ∧
  (∀ (s : State) (i : Inputs), romSelect i.bus.addr = true →
    ∃ t : State, step (s.drive i) = .next t ∧ t.ram = s.ram ∧ ∀ j, t.ramWord j = s.ramWord j)

/-- 20_memory.md section 6 (R46): after any run a RAM word holds what the last write of it stored, and what it held before
the run if none wrote it. A write strobed in a reset cycle counts as a write (decision D5, log 12). -/
def Obligations.RamHoldsTheLastWrite : Prop :=
  ∀ (is : List Inputs) (s t : State) (k : RamIndex), Memory.wf s.cfg.ramInit s.ram = true →
    runDriven is s = .next t → t.ramWord k.toNat = lastWritten k is (s.ramWord k.toNat)

/-- 43_memory_blocks.md section 2 (R111; the source states the law itself): a word written to RAM at `A` and read later at an
address with the same bits 14 to 1, with no write of that word between, is on `data_in` exactly one cycle after the
read. R111 speaks of `RAM.WR` and `RAM.RW`; that the write cycle may also assert reset, and that a write in a reset
cycle is one of those the cycles between must not make, rests on decision D5 (log 12). -/
def Obligations.RamRoundTrip : Prop :=
  ∀ (s : State) (i j n : Inputs) (is : List Inputs), Memory.wf s.cfg.ramInit s.ram = true →
    writeRamStrobe i.bus.addr i.bus.wr = true →
    (∀ x ∈ is, writesWord (ramIdx i.bus.addr) x.bus = false) →
    j.bus.reset = false → readRamStrobe j.bus.addr j.bus.rd = true → j.bus.wr = false →
    ramIdx j.bus.addr = ramIdx i.bus.addr →
    ∃ t : State, runDriven (i :: (is ++ [j, n])) s = .next t ∧ t.ports.dataIn = i.bus.dataOut

/-- 70_reset_and_hazards.md section 1 (R157 to R159; D4 and D5, log 2 and log 12): a run of reset cycles without a RAM write leaves
every RAM word, and after at least one of them `DIN` is `DIN_RESET` where that is present. -/
def Obligations.ResetRunKeepsMemory : Prop :=
  ∀ (is : List Inputs) (s t : State), is ≠ [] →
    (∀ i ∈ is, i.bus.reset = true ∧ writeRamStrobe i.bus.addr i.bus.wr = false) →
    runDriven is s = .next t →
    t.ram = s.ram ∧ (∀ j, t.ramWord j = s.ramWord j) ∧ ∀ w, s.cfg.dinReset = some w → t.din = w

/-- 70_reset_and_hazards.md section 3 (R165 to R168): a portable read gives the same `data_in` on any two instances that hold the same
ROM image and the same RAM words, whatever their `RAM_RW_SAME_ADDR`, `DIN_RESET`, draws, peripherals and earlier `DIN`. -/
def Obligations.PortableReadIsDetermined : Prop :=
  ∀ (s s' t t' : State) (i : Inputs), portableRead i.bus = true →
    s.cfg.romImage = s'.cfg.romImage → (∀ j, s.ramWord j = s'.ramWord j) →
    step (s.drive i) = .next t → step (s'.drive i) = .next t' → t.din = t'.din

/-- 42_data_mux.md R96 (U2, N3), with output latches that hold while they are not enabled (log 25): the circuit with
registered memory outputs shows on `data_in`, after any run without reset that
ends in a cycle whose value is no draw, the word that the model holds in `DIN`. -/
def Obligations.SynchronousCircuitRefinesDin : Prop :=
  ∀ (s t : State) (c : SyncCircuit) (is : List Inputs) (i : Inputs), c.ram = s.ram →
    (∀ x ∈ is ++ [i], x.bus.reset = false) → dataInDetermined s.cfg i.bus = true →
    runDriven (is ++ [i]) s = .next t →
    syncDataIn (syncRun s (is ++ [i]) c) = t.din ∧ (syncRun s (is ++ [i]) c).ram = t.ram

/-! ## Invariants and reset -/

/-- R26 and the canonical form (log 1): from every state with the invariant, not only those a run reaches, a step leads to
a state with it. -/
def Obligations.EveryStepKeepsTheInvariant : Prop :=
  ∀ s t : State, Inv s → step s = .next t → Inv t

/-- The state after reset has the invariant. -/
def Obligations.ResetStateHasTheInvariant : Prop := Inv State.reset

/-- 10_state.md R27, R28: at reset every RAM word is `RAM_INIT` of its index, `DIN` is `DIN_RESET` where present and
0x0000 where absent (the model's choice, log 2), the cycle index is 0, and the state is the one construction builds from
its record. -/
def Obligations.ResetStateIsConstructed : Prop :=
  construct State.reset.cfg State.reset.din = .ok State.reset ∧ State.reset.cycle = 0 ∧
  (∀ i, State.reset.ramWord i = unlisted State.reset.cfg.ramInit i) ∧
  (∀ w, State.reset.cfg.dinReset = some w → State.reset.din = w) ∧
  (State.reset.cfg.dinReset = none → State.reset.din = 0x0000)

/-- The canonical form (log 1): two canonical memories over one initial array that read alike at every word are the same
data. -/
def Obligations.CanonicalMemoriesAreEqualData : Prop :=
  ∀ (init : List Word) (m m' : Memory), Memory.wf init m = true → Memory.wf init m' = true →
    (∀ i < 16384, readMem init m i = readMem init m' i) → m = m'

/-! ## Construction -/

/-- 40_clock_config.md R76: the whole clock manager as the rule writes it. -/
def Obligations.ClockManagerAsOneFunction : Prop :=
  ∀ (ref : Int) (req : Option Int) (eff : Int) (mode : ClockMode),
    (req = none ∨ req = some ref → eff = ref ∧ mode = .passThrough) →
    (¬(req = none ∨ req = some ref) → req = some eff ∧ mode = .synthesized) →
    clockConfig ref req =
      if eff ≤ 0 ∨ eff % 1000000 ≠ 0 ∨ 64000000 ≤ eff then .error .badFrequency
      else .ok ⟨mode, eff, (eff / 1000000).toNat⟩

/-- 40_clock_config.md R70, R71 (the corner case of a bad reference is marked derived there; D21, log 10): a reference and a
request are accepted exactly when the effective frequency is 1,000,000 × k for a k from 1 to 63, and then the setting
has that frequency and the baud parameter k; each of the 63 is accepted as a reference without a request, and as a
request beside any reference. -/
def Obligations.LegalFrequenciesAreOneTo63MHz : Prop :=
  (∀ (ref : Int) (req : Option Int),
    (∃ setting, clockConfig ref req = .ok setting) ↔
      ∃ k : Nat, 1 ≤ k ∧ k ≤ 63 ∧ effectiveHz ref req = 1000000 * k) ∧
  ∀ k : Nat, 1 ≤ k → k ≤ 63 →
    (∀ (ref : Int) (req : Option Int), effectiveHz ref req = 1000000 * k →
      clockConfig ref req = .ok ⟨clockMode ref req, 1000000 * k, k⟩) ∧
    clockConfig (1000000 * k) none = .ok ⟨.passThrough, 1000000 * k, k⟩ ∧
    ∀ ref : Int, ∃ mode, clockConfig ref (some (1000000 * k)) = .ok ⟨mode, 1000000 * k, k⟩

/-- 60_exceptions.md section 1 (R142 to R145): a bad frequency is the error reported whatever other causes the record has,
which is the model's choice of an order (decision D26, log 21; 40_clock_config.md R72 and R163 put that check before the
memory blocks are built, and R147 asks a claim on the hardware not to depend on the order); the
two other kinds are reported only where their cause is present, in an order the statement leaves open; a record
without any of the causes, and no other, is constructed, and then every RAM word is
`RAM_INIT` and `DIN(0)` is the given power-up word. -/
def Obligations.ConstructionRefusesBadRecords : Prop :=
  ∀ (cfg : Cfg) (d : Word),
    let badFreq := legalFrequency (effectiveHz cfg.refFreqHz cfg.reqFreqHz) = false
    let badWidth := cfg.romShape.readWidth ≠ cfg.romShape.writeWidth ∨ cfg.ramShape.readWidth ≠ cfg.ramShape.writeWidth
    let badSize := cfg.romShape.depth = 0 ∨ cfg.ramShape.depth = 0 ∨ cfg.romImage.length ≠ 4096
    (construct cfg d = .error .badFrequency ↔ badFreq) ∧
    (construct cfg d = .error .widthMismatch → ¬badFreq ∧ badWidth) ∧
    (construct cfg d = .error .malformedConfig → ¬badFreq ∧ badSize) ∧
    ((∃ s, construct cfg d = .ok s) ↔ ¬badFreq ∧ ¬badWidth ∧ ¬badSize) ∧
    ∀ s, construct cfg d = .ok s →
      Inv s ∧ s.cfg = cfg ∧ s.din = d ∧ s.cycle = 0 ∧ ∀ i, s.ramWord i = unlisted cfg.ramInit i

/-! ## The stimulus notation -/

/-- 30_encoding.md section 7 (R65, the spec's own notation, D12; the `cruout` 0 of `SENSE` is that of program P3 in
95_test_vectors.md, and that of an explicit `OFF` is left open here, log 24): the field form assembles to its cycle; a line whose mnemonic
agrees with `addr[15]` and whose CRU part agrees with `addr[15:6]` assembles, and selects the memory-path operation its
mnemonic names and the CRU-path operation its CRU part names, with the operands written and the bits the mnemonic
leaves free at 0; a line that contradicts its region is rejected, and one that contradicts its CRU range alone is
rejected as such. -/
def Obligations.AssembledLineSelectsItsOperations : Prop :=
  (∀ v, assemble (.field v) = .ok v) ∧
  ∀ (op : MemOp) (a : Word) (dout : Option Word) (cru : Option CruOp),
    (memOpBank op ≠ bank a → assemble (.mnemonic op a dout cru) = .error .regionMismatch) ∧
    (memOpBank op = bank a → cruOpFits a cru = false → assemble (.mnemonic op a dout cru) = .error .rangeMismatch) ∧
    (memOpBank op = bank a → cruOpFits a cru = true → ∃ v, assemble (.mnemonic op a dout cru) = .ok v) ∧
    (cru = none → cruOpFits a cru = true) ∧
    ((∃ b, cru = some (.strobe b)) ∨ cru = some .sense → (cruOpFits a cru = true ↔ a.toNat < 0x40)) ∧
    (cru = some .off ∨ (∃ b, cru = some (.offClk b)) → (cruOpFits a cru = true ↔ 0x40 ≤ a.toNat)) ∧
    ∀ v, assemble (.mnemonic op a dout cru) = .ok v →
      (decodeMem v).mnemonic = memOpName op ∧ v.addr = a ∧ v.dataOut = dout.getD 0 ∧
      (v.reset = true → v.rd = false) ∧ (op = .rstRom → v.wr = false) ∧
      (∀ b, cru = some (.strobe b) → (decodeCru v).mnemonic = "CRU.STROBE" ∧ v.cruout = b) ∧
      (cru = some .sense → (decodeCru v).mnemonic = "CRU.SENSE" ∧ v.cruout = false) ∧
      (cru = some .off → (decodeCru v).mnemonic = "CRU.OFF" ∧ v.cruclk = false) ∧
      (∀ b, cru = some (.offClk b) → (decodeCru v).mnemonic = "CRU.OFF" ∧ v.cruclk = true ∧ v.cruout = b) ∧
      (cru = none → v.cruclk = false ∧ v.cruout = false)

/-- 30_encoding.md section 7 (R66) with the fixture of R124 (log 6) and `ROM.IDLE` of 45_bus_cycles.md section 2 (R126; the
word index is decision D1, log 13, the capture without `rd` decision D16, log 14): `SETBIT k`, `CLRBIT k` and `TESTBIT k`
assemble for every bit-register, and a tested bit is the bit last set, while the memory path captures the ROM word of address `2 × k`. -/
def Obligations.SetBitThenTestBit : Prop :=
  ∀ (s : State) (bits : BitVec 32) (k : CruSub) (b x y : Bool), s.periph = .latch bits →
    ∃ (set test : CycleVector) (t : State),
      assemble (expand (if b then .setBit k else .clrBit k)) = .ok set ∧ assemble (expand (.testBit k)) = .ok test ∧
      runDriven [⟨set, x⟩, ⟨test, y⟩] s = .next t ∧ t.ports.cruin = b ∧ t.ports.perS = k ∧
      t.din = s.romWord k.toNat ∧ t.ram = s.ram
end

