-- ==== Sys2Proof/Laws/Config.lean ====
section
/-! SUPPORT. An array given as a function, read as the list the configuration record holds, and the fields of the record
of the instance that `State.reset` is. -/

namespace Sys2Proof

@[simp] theorem Config.tabulate_length (f : Nat → Word) (n i : Nat) : (Config.tabulate f n i).length = n := by
  induction n generalizing i with
  | zero => rfl
  | succ n ih => simp only [Config.tabulate, List.length_cons, ih]

theorem Config.tabulate_getElem? (f : Nat → Word) (n i k : Nat) (h : k < n) :
    (Config.tabulate f n i)[k]? = some (f (i + k)) := by
  induction n generalizing i k with
  | zero => omega
  | succ n ih =>
    cases k with
    | zero => rfl
    | succ k =>
      rw [Config.tabulate, List.getElem?_cons_succ, ih _ _ (by omega)]
      congr 2; omega

/-- The effective frequency of the instance that `State.reset` is, in MHz, is 1 to 63 (R174). -/
theorem Config.clockMHz_bounds : 1 ≤ Config.clockMHz ∧ Config.clockMHz ≤ 63 := by
  unfold Config.clockMHz; omega

/-- The clock of that instance in hertz, as an integer. -/
theorem Config.clockHz_toInt : (Config.clockHz : Int) = 1000000 * Config.clockMHz :=
  Int.natCast_mul 1000000 Config.clockMHz

@[simp] theorem Config.theRecord_refFreqHz :
    Config.theRecord.refFreqHz = if Config.requested then Config.anyReferenceHz else Config.clockHz := rfl
@[simp] theorem Config.theRecord_reqFreqHz :
    Config.theRecord.reqFreqHz = if Config.requested then some (Config.clockHz : Int) else none := rfl
@[simp] theorem Config.theRecord_romImage :
    Config.theRecord.romImage = Config.tabulate Config.romWord Config.romWords 0 := rfl
@[simp] theorem Config.theRecord_romShape : Config.theRecord.romShape = Config.romShape := rfl
@[simp] theorem Config.theRecord_ramShape : Config.theRecord.ramShape = Config.ramShape := rfl

/-- The effective frequency of that instance, requested or not (R68, R69). -/
theorem Config.theRecord_effectiveHz :
    Machine.effectiveHz Config.theRecord.refFreqHz Config.theRecord.reqFreqHz = Config.clockHz := by
  rw [Config.theRecord_refFreqHz, Config.theRecord_reqFreqHz]
  cases Config.requested with
  | false => simp only [Bool.false_eq_true, if_false, Machine.effectiveHz, Machine.clockMode]
  | true =>
    simp only [if_true, Machine.effectiveHz, Machine.clockMode]
    split_ifs with h
    · exact h.symm
    · rfl

/-- A `WAITS_VALUE` fits in its width (R9, R25). -/
theorem Waits.value_lt (w : Waits) : w.value < 2 ^ (w.width : Nat) := w.bits.isLt

end Sys2Proof
end

