-- ==== Sys2Proof/Laws/Memory.lean ====
section
/-! SUPPORT. The laws of the sparse RAM: a read after a write, the words a write leaves alone, the canonical form, and
that canonical memories with the same words are the same data. -/

namespace Sys2Proof.Machine

/-! ### lookup after putEntry -/

theorem lookup_toList_append (i k : Nat) (e : Option Word) (m : Memory) :
    lookup ((e.map (Prod.mk i)).toList ++ m) k = if k = i then (e <|> lookup m k) else lookup m k := by
  cases e <;> simp [lookup]

/-- No entry of a canonical tail has an index below its bound. -/
theorem lookup_wfFrom_below (init : List Word) (m : Memory) (lo k : Nat) (h : wfFrom init lo m = true) (hk : k < lo) :
    lookup m k = none := by
  induction m generalizing lo with
  | nil => rfl
  | cons p m ih =>
    obtain ⟨j, w⟩ := p
    simp only [wfFrom, Bool.and_eq_true, decide_eq_true_eq] at h
    have hne : k ≠ j := by omega
    rw [lookup, if_neg hne]
    exact ih (j + 1) h.2 (by omega)

theorem lookup_putEntry_same (init : List Word) (m : Memory) (lo i : Nat) (e : Option Word)
    (h : wfFrom init lo m = true) : lookup (putEntry m i e) i = e := by
  induction m generalizing lo with
  | nil => cases e <;> simp [putEntry, lookup]
  | cons p m ih =>
    obtain ⟨j, w⟩ := p
    have hw := h
    simp only [wfFrom, Bool.and_eq_true, decide_eq_true_eq] at h
    unfold putEntry
    split_ifs with h1 h2
    · have hnone : lookup ((j, w) :: m) i = none := by
        rw [lookup, if_neg (by omega)]
        exact lookup_wfFrom_below init m (j + 1) i h.2 (by omega)
      rw [lookup_toList_append, hnone]
      cases e <;> simp
    · have hnone : lookup m i = none := lookup_wfFrom_below init m (j + 1) i h.2 (by omega)
      rw [lookup_toList_append, hnone]
      cases e <;> simp
    · rw [lookup, if_neg h2]
      exact ih (j + 1) h.2

theorem lookup_putEntry_other (m : Memory) (i k : Nat) (e : Option Word) (hk : k ≠ i) :
    lookup (putEntry m i e) k = lookup m k := by
  induction m with
  | nil => cases e <;> simp [putEntry, lookup, hk]
  | cons p m ih =>
    obtain ⟨j, w⟩ := p
    unfold putEntry
    split_ifs with h1 h2
    · rw [lookup_toList_append, if_neg hk]
    · rw [lookup_toList_append, if_neg hk, lookup, if_neg (by omega)]
    · simp only [lookup, ih]

/-! ### the canonical form -/

theorem wfFrom_weaken (init : List Word) (m : Memory) (lo lo' : Nat) (h : wfFrom init lo m = true) (hle : lo' ≤ lo) :
    wfFrom init lo' m = true := by
  cases m with
  | nil => rfl
  | cons p m =>
    obtain ⟨j, w⟩ := p
    simp only [wfFrom, Bool.and_eq_true, decide_eq_true_eq] at h ⊢
    exact ⟨⟨⟨by omega, h.1.1.2⟩, h.1.2⟩, h.2⟩

theorem wfFrom_putEntry (init : List Word) (m : Memory) (lo i : Nat) (e : Option Word) (h : wfFrom init lo m = true)
    (hlo : lo ≤ i) (hi : i < Config.ramWords) (he : ∀ w, e = some w → w ≠ unlisted init i) :
    wfFrom init lo (putEntry m i e) = true := by
  have entry (tail : Memory) (b : Nat) (hb : b ≤ i) (ht : wfFrom init (i + 1) tail = true) :
      wfFrom init b ((e.map (Prod.mk i)).toList ++ tail) = true := by
    cases e with
    | none => simpa using wfFrom_weaken init tail (i + 1) b ht (by omega)
    | some w => simp [wfFrom, hb, hi, he w rfl, ht]
  induction m generalizing lo with
  | nil =>
    have := entry [] lo hlo rfl
    simpa [putEntry] using this
  | cons p m ih =>
    obtain ⟨j, w⟩ := p
    have hw := h
    simp only [wfFrom, Bool.and_eq_true, decide_eq_true_eq] at h
    unfold putEntry
    split_ifs with h1 h2
    · refine entry _ lo hlo ?_
      simp only [wfFrom, Bool.and_eq_true, decide_eq_true_eq]
      exact ⟨⟨⟨by omega, h.1.1.2⟩, h.1.2⟩, h.2⟩
    · subst h2
      exact entry m lo hlo h.2
    · simp only [wfFrom, Bool.and_eq_true, decide_eq_true_eq]
      exact ⟨⟨⟨h.1.1.1, h.1.1.2⟩, h.1.2⟩, ih (j + 1) h.2 (by omega)⟩

/-- A write keeps the canonical form. -/
theorem Memory.wf_writeMem (init : List Word) (m : Memory) (i : Nat) (v : Word) (h : Memory.wf init m = true)
    (hi : i < Config.ramWords) : Memory.wf init (writeMem init m i v) = true := by
  refine wfFrom_putEntry init m 0 i _ h (Nat.zero_le i) hi ?_
  intro w hw
  split_ifs at hw with hv
  · cases hw; exact hv

/-- The memory at reset, nothing listed, is canonical. -/
@[simp] theorem Memory.wf_nil (init : List Word) : Memory.wf init [] = true := rfl

/-! ### reading after writing -/

/-- A read after a write of the same word gives the value written (R104, R105). -/
theorem readMem_writeMem_same (init : List Word) (m : Memory) (i : Nat) (v : Word) (h : Memory.wf init m = true) :
    readMem init (writeMem init m i v) i = v := by
  unfold readMem writeMem
  rw [lookup_putEntry_same init m 0 i _ h]
  split_ifs with hv
  · exact hv.symm
  · rfl

/-- A write leaves every other word alone (R104). -/
theorem readMem_writeMem_other (init : List Word) (m : Memory) (i k : Nat) (v : Word) (hk : k ≠ i) :
    readMem init (writeMem init m i v) k = readMem init m k := by
  unfold readMem writeMem
  rw [lookup_putEntry_other m i k _ hk]

/-! ### equal words, equal data -/

/-- A listed index of a canonical tail reads differently from what an unlisted word reads as. -/
theorem lookup_ne_unlisted (init : List Word) (m : Memory) (lo i : Nat) (w : Word) (h : wfFrom init lo m = true)
    (hl : lookup m i = some w) : w ≠ unlisted init i := by
  induction m generalizing lo with
  | nil => cases hl
  | cons p m ih =>
    obtain ⟨j, u⟩ := p
    simp only [wfFrom, Bool.and_eq_true, decide_eq_true_eq] at h
    rw [lookup] at hl
    split_ifs at hl with hij
    · cases hl; subst hij; exact h.1.2
    · exact ih (j + 1) h.2 hl

/-- Canonical memories over one initial array that read alike list the same entries. -/
theorem lookup_eq_of_readMem_eq (init : List Word) (m m' : Memory) (i : Nat) (h : Memory.wf init m = true)
    (h' : Memory.wf init m' = true) (hr : readMem init m i = readMem init m' i) : lookup m i = lookup m' i := by
  have hm := fun w => lookup_ne_unlisted init m 0 i w h
  have hm' := fun w => lookup_ne_unlisted init m' 0 i w h'
  unfold readMem at hr
  cases hl : lookup m i with
  | none =>
    cases hl' : lookup m' i with
    | none => rfl
    | some w' => rw [hl, hl'] at hr; exact absurd hr.symm (hm' w' hl')
  | some w =>
    cases hl' : lookup m' i with
    | none => rw [hl, hl'] at hr; exact absurd hr (hm w hl)
    | some w' => rw [hl, hl'] at hr; exact congrArg some hr

end Sys2Proof.Machine
end

