-- ==== Sys2Proof/Laws/State.lean ====
section
/-! SUPPORT. One lemma per field per update of the state, true by unfolding the update once. -/

namespace Sys2Proof.Machine

variable (s : State)

/-! ### loadDin -/

@[simp] theorem State.loadDin_cfg (w : Word) : (s.loadDin w).cfg = s.cfg := rfl
@[simp] theorem State.loadDin_din (w : Word) : (s.loadDin w).din = w := rfl
@[simp] theorem State.loadDin_ram (w : Word) : (s.loadDin w).ram = s.ram := rfl
@[simp] theorem State.loadDin_periph (w : Word) : (s.loadDin w).periph = s.periph := rfl
@[simp] theorem State.loadDin_cycle (w : Word) : (s.loadDin w).cycle = s.cycle := rfl
@[simp] theorem State.loadDin_pending (w : Word) : (s.loadDin w).pending = s.pending := rfl
@[simp] theorem State.loadDin_rx (w : Word) : (s.loadDin w).rx = s.rx := rfl
@[simp] theorem State.loadDin_ports (w : Word) : (s.loadDin w).ports = s.ports := rfl
@[simp] theorem State.loadDin_wordDraws (w : Word) : (s.loadDin w).wordDraws = s.wordDraws := rfl
@[simp] theorem State.loadDin_bitDraws (w : Word) : (s.loadDin w).bitDraws = s.bitDraws := rfl

/-! ### spendWord -/

@[simp] theorem State.spendWord_cfg : s.spendWord.cfg = s.cfg := rfl
@[simp] theorem State.spendWord_din : s.spendWord.din = s.din := rfl
@[simp] theorem State.spendWord_ram : s.spendWord.ram = s.ram := rfl
@[simp] theorem State.spendWord_periph : s.spendWord.periph = s.periph := rfl
@[simp] theorem State.spendWord_cycle : s.spendWord.cycle = s.cycle := rfl
@[simp] theorem State.spendWord_pending : s.spendWord.pending = s.pending := rfl
@[simp] theorem State.spendWord_rx : s.spendWord.rx = s.rx := rfl
@[simp] theorem State.spendWord_ports : s.spendWord.ports = s.ports := rfl
@[simp] theorem State.spendWord_wordDraws : s.spendWord.wordDraws = s.wordDraws + 1 := rfl
@[simp] theorem State.spendWord_bitDraws : s.spendWord.bitDraws = s.bitDraws := rfl

/-! ### spendBit -/

@[simp] theorem State.spendBit_cfg : s.spendBit.cfg = s.cfg := rfl
@[simp] theorem State.spendBit_din : s.spendBit.din = s.din := rfl
@[simp] theorem State.spendBit_ram : s.spendBit.ram = s.ram := rfl
@[simp] theorem State.spendBit_periph : s.spendBit.periph = s.periph := rfl
@[simp] theorem State.spendBit_cycle : s.spendBit.cycle = s.cycle := rfl
@[simp] theorem State.spendBit_pending : s.spendBit.pending = s.pending := rfl
@[simp] theorem State.spendBit_rx : s.spendBit.rx = s.rx := rfl
@[simp] theorem State.spendBit_ports : s.spendBit.ports = s.ports := rfl
@[simp] theorem State.spendBit_wordDraws : s.spendBit.wordDraws = s.wordDraws := rfl
@[simp] theorem State.spendBit_bitDraws : s.spendBit.bitDraws = s.bitDraws + 1 := rfl

/-! ### writeRam -/

@[simp] theorem State.writeRam_cfg (a v : Word) : (s.writeRam a v).cfg = s.cfg := rfl
@[simp] theorem State.writeRam_din (a v : Word) : (s.writeRam a v).din = s.din := rfl
@[simp] theorem State.writeRam_ram (a v : Word) : (s.writeRam a v).ram = writeMem s.cfg.ramInit s.ram (ramIdx a).toNat v := rfl
@[simp] theorem State.writeRam_periph (a v : Word) : (s.writeRam a v).periph = s.periph := rfl
@[simp] theorem State.writeRam_cycle (a v : Word) : (s.writeRam a v).cycle = s.cycle := rfl
@[simp] theorem State.writeRam_pending (a v : Word) : (s.writeRam a v).pending = s.pending := rfl
@[simp] theorem State.writeRam_rx (a v : Word) : (s.writeRam a v).rx = s.rx := rfl
@[simp] theorem State.writeRam_ports (a v : Word) : (s.writeRam a v).ports = s.ports := rfl
@[simp] theorem State.writeRam_wordDraws (a v : Word) : (s.writeRam a v).wordDraws = s.wordDraws := rfl
@[simp] theorem State.writeRam_bitDraws (a v : Word) : (s.writeRam a v).bitDraws = s.bitDraws := rfl

/-! ### driveBridge -/

@[simp] theorem State.driveBridge_cfg (sel clk out : Bool) (k : CruSub) (b : Bool) : (s.driveBridge sel clk out k b).cfg = s.cfg := rfl
@[simp] theorem State.driveBridge_din (sel clk out : Bool) (k : CruSub) (b : Bool) : (s.driveBridge sel clk out k b).din = s.din := rfl
@[simp] theorem State.driveBridge_ram (sel clk out : Bool) (k : CruSub) (b : Bool) : (s.driveBridge sel clk out k b).ram = s.ram := rfl
@[simp] theorem State.driveBridge_periph (sel clk out : Bool) (k : CruSub) (b : Bool) : (s.driveBridge sel clk out k b).periph = s.periph := rfl
@[simp] theorem State.driveBridge_cycle (sel clk out : Bool) (k : CruSub) (b : Bool) : (s.driveBridge sel clk out k b).cycle = s.cycle := rfl
@[simp] theorem State.driveBridge_pending (sel clk out : Bool) (k : CruSub) (b : Bool) : (s.driveBridge sel clk out k b).pending = s.pending := rfl
@[simp] theorem State.driveBridge_rx (sel clk out : Bool) (k : CruSub) (b : Bool) : (s.driveBridge sel clk out k b).rx = s.rx := rfl
@[simp] theorem State.driveBridge_ports (sel clk out : Bool) (k : CruSub) (b : Bool) : (s.driveBridge sel clk out k b).ports = ⟨s.ports.dataIn, b, s.ports.waits, sel, clk, out, k⟩ := rfl
@[simp] theorem State.driveBridge_wordDraws (sel clk out : Bool) (k : CruSub) (b : Bool) : (s.driveBridge sel clk out k b).wordDraws = s.wordDraws := rfl
@[simp] theorem State.driveBridge_bitDraws (sel clk out : Bool) (k : CruSub) (b : Bool) : (s.driveBridge sel clk out k b).bitDraws = s.bitDraws := rfl

/-! ### clockPeriph -/

@[simp] theorem State.clockPeriph_cfg (sel clk out : Bool) (k : CruSub) (r : Bool) : (s.clockPeriph sel clk out k r).cfg = s.cfg := rfl
@[simp] theorem State.clockPeriph_din (sel clk out : Bool) (k : CruSub) (r : Bool) : (s.clockPeriph sel clk out k r).din = s.din := rfl
@[simp] theorem State.clockPeriph_ram (sel clk out : Bool) (k : CruSub) (r : Bool) : (s.clockPeriph sel clk out k r).ram = s.ram := rfl
@[simp] theorem State.clockPeriph_periph (sel clk out : Bool) (k : CruSub) (r : Bool) : (s.clockPeriph sel clk out k r).periph = s.periph.advance sel clk out k r s.rx := rfl
@[simp] theorem State.clockPeriph_cycle (sel clk out : Bool) (k : CruSub) (r : Bool) : (s.clockPeriph sel clk out k r).cycle = s.cycle := rfl
@[simp] theorem State.clockPeriph_pending (sel clk out : Bool) (k : CruSub) (r : Bool) : (s.clockPeriph sel clk out k r).pending = s.pending := rfl
@[simp] theorem State.clockPeriph_rx (sel clk out : Bool) (k : CruSub) (r : Bool) : (s.clockPeriph sel clk out k r).rx = s.rx := rfl
@[simp] theorem State.clockPeriph_ports (sel clk out : Bool) (k : CruSub) (r : Bool) : (s.clockPeriph sel clk out k r).ports = s.ports := rfl
@[simp] theorem State.clockPeriph_wordDraws (sel clk out : Bool) (k : CruSub) (r : Bool) : (s.clockPeriph sel clk out k r).wordDraws = s.wordDraws := rfl
@[simp] theorem State.clockPeriph_bitDraws (sel clk out : Bool) (k : CruSub) (r : Bool) : (s.clockPeriph sel clk out k r).bitDraws = s.bitDraws := rfl

/-! ### beginCycle -/

@[simp] theorem State.beginCycle_cfg (i : Inputs) : (s.beginCycle i).cfg = s.cfg := rfl
@[simp] theorem State.beginCycle_din (i : Inputs) : (s.beginCycle i).din = s.din := rfl
@[simp] theorem State.beginCycle_ram (i : Inputs) : (s.beginCycle i).ram = s.ram := rfl
@[simp] theorem State.beginCycle_periph (i : Inputs) : (s.beginCycle i).periph = s.periph := rfl
@[simp] theorem State.beginCycle_cycle (i : Inputs) : (s.beginCycle i).cycle = s.cycle := rfl
@[simp] theorem State.beginCycle_pending (i : Inputs) : (s.beginCycle i).pending = s.pending.tail := rfl
@[simp] theorem State.beginCycle_rx (i : Inputs) : (s.beginCycle i).rx = i.rx := rfl
@[simp] theorem State.beginCycle_ports (i : Inputs) : (s.beginCycle i).ports = ⟨s.din, s.ports.cruin, s.cfg.waits.value, s.ports.perSel, s.ports.perCruclk, s.ports.perCruout, s.ports.perS⟩ := rfl
@[simp] theorem State.beginCycle_wordDraws (i : Inputs) : (s.beginCycle i).wordDraws = s.wordDraws := rfl
@[simp] theorem State.beginCycle_bitDraws (i : Inputs) : (s.beginCycle i).bitDraws = s.bitDraws := rfl

/-! ### endCycle -/

@[simp] theorem State.endCycle_cfg : s.endCycle.cfg = s.cfg := rfl
@[simp] theorem State.endCycle_din : s.endCycle.din = s.din := rfl
@[simp] theorem State.endCycle_ram : s.endCycle.ram = s.ram := rfl
@[simp] theorem State.endCycle_periph : s.endCycle.periph = s.periph := rfl
@[simp] theorem State.endCycle_cycle : s.endCycle.cycle = s.cycle + 1 := rfl
@[simp] theorem State.endCycle_pending : s.endCycle.pending = s.pending := rfl
@[simp] theorem State.endCycle_rx : s.endCycle.rx = s.rx := rfl
@[simp] theorem State.endCycle_ports : s.endCycle.ports = s.ports := rfl
@[simp] theorem State.endCycle_wordDraws : s.endCycle.wordDraws = s.wordDraws := rfl
@[simp] theorem State.endCycle_bitDraws : s.endCycle.bitDraws = s.bitDraws := rfl

/-! ### drive -/

@[simp] theorem State.drive_cfg (i : Inputs) : (s.drive i).cfg = s.cfg := rfl
@[simp] theorem State.drive_din (i : Inputs) : (s.drive i).din = s.din := rfl
@[simp] theorem State.drive_ram (i : Inputs) : (s.drive i).ram = s.ram := rfl
@[simp] theorem State.drive_periph (i : Inputs) : (s.drive i).periph = s.periph := rfl
@[simp] theorem State.drive_cycle (i : Inputs) : (s.drive i).cycle = s.cycle := rfl
@[simp] theorem State.drive_pending (i : Inputs) : (s.drive i).pending = i :: s.pending := rfl
@[simp] theorem State.drive_rx (i : Inputs) : (s.drive i).rx = s.rx := rfl
@[simp] theorem State.drive_ports (i : Inputs) : (s.drive i).ports = s.ports := rfl
@[simp] theorem State.drive_wordDraws (i : Inputs) : (s.drive i).wordDraws = s.wordDraws := rfl
@[simp] theorem State.drive_bitDraws (i : Inputs) : (s.drive i).bitDraws = s.bitDraws := rfl

end Sys2Proof.Machine
end

