-- ==== Sys2Proof/Laws/Ops.lean ====
section
/-! SUPPORT. One lemma per shared operation that says once everything it can do. -/

namespace Sys2Proof.Machine

/-- A 14-bit index is an index of RAM. -/
theorem ramIdx_lt (a : Word) : (ramIdx a).toNat < Config.ramWords := (ramIdx a).isLt

/-- A 12-bit index is an index of ROM. -/
theorem romIdx_lt (a : Word) : (romIdx a).toNat < Config.romWords := (romIdx a).isLt

/-- The ROM word index as a number (R35). -/
theorem romIdx_toNat (a : Word) : (romIdx a).toNat = a.toNat / 2 % 4096 := by
  simp [romIdx, BitVec.extractLsb'_toNat, Nat.shiftRight_eq_div_pow]

/-- The RAM word index as a number (R36). -/
theorem ramIdx_toNat (a : Word) : (ramIdx a).toNat = a.toNat / 2 % 16384 := by
  simp [ramIdx, BitVec.extractLsb'_toNat, Nat.shiftRight_eq_div_pow]

/-- The CRU sub-address as a number (R117). -/
theorem cruSub_toNat (a : Word) : (cruSub a).toNat = a.toNat / 2 % 32 := by
  simp [cruSub, BitVec.extractLsb'_toNat, Nat.shiftRight_eq_div_pow]

/-- The compared field of the peripheral select as a number (R82). -/
theorem cruHi_toNat (a : Word) : (cruHi a).toNat = a.toNat / 64 % 1024 := by
  simp [cruHi, BitVec.extractLsb'_toNat, Nat.shiftRight_eq_div_pow]

/-! ### reading memory after an update -/

theorem State.romWord_of_cfg {s t : State} (h : t.cfg = s.cfg) (i : Nat) : t.romWord i = s.romWord i := by
  unfold State.romWord; rw [h]

theorem State.ramWord_of_eq {s t : State} (hc : t.cfg = s.cfg) (hr : t.ram = s.ram) (i : Nat) :
    t.ramWord i = s.ramWord i := by
  unfold State.ramWord; rw [hc, hr]

/-- After a write of RAM the addressed word holds the value written (R104). -/
theorem State.ramWord_writeRam_same (s : State) (a v : Word) (h : Memory.wf s.cfg.ramInit s.ram = true) :
    (s.writeRam a v).ramWord (ramIdx a).toNat = v :=
  readMem_writeMem_same _ _ _ _ h

/-- After a write of RAM every other word is as before (R104). -/
theorem State.ramWord_writeRam_other (s : State) (a v : Word) (j : Nat) (hj : j ≠ (ramIdx a).toNat) :
    (s.writeRam a v).ramWord j = s.ramWord j :=
  readMem_writeMem_other _ _ _ _ _ hj

/-- A write of RAM keeps the canonical form. -/
theorem State.wf_writeRam (s : State) (a v : Word) (h : Memory.wf s.cfg.ramInit s.ram = true) :
    Memory.wf (s.writeRam a v).cfg.ramInit (s.writeRam a v).ram = true :=
  Memory.wf_writeMem _ _ _ _ h (ramIdx_lt a)

/-! ### loading DIN -/

/-- A draw loads `DIN` with the next free word and uses one draw up (R107). -/
theorem State.drawDin_eq (s : State) :
    s.drawDin = { s with din := Config.anyWord s.wordDraws, wordDraws := s.wordDraws + 1 } := rfl

/-- A reset of `DIN` loads `DIN_RESET`, or draws where it is absent (R94). -/
theorem State.resetDin_cases (s : State) :
    (∃ w, s.cfg.dinReset = some w ∧ s.resetDin = { s with din := w }) ∨
    (s.cfg.dinReset = none ∧
      s.resetDin = { s with din := Config.anyWord s.wordDraws, wordDraws := s.wordDraws + 1 }) := by
  unfold State.resetDin
  cases h : s.cfg.dinReset with
  | some w => exact .inl ⟨w, rfl, rfl⟩
  | none => exact .inr ⟨rfl, rfl⟩

/-- Loading `DIN`, drawing it or resetting it changes `DIN` and the count of draws, and nothing else. -/
theorem State.resetDin_frame (s : State) :
    s.resetDin.cfg = s.cfg ∧ s.resetDin.ram = s.ram ∧ s.resetDin.periph = s.periph ∧ s.resetDin.cycle = s.cycle ∧
    s.resetDin.pending = s.pending ∧ s.resetDin.rx = s.rx ∧ s.resetDin.ports = s.ports ∧
    s.resetDin.bitDraws = s.bitDraws := by
  obtain ⟨w, -, h⟩ | ⟨-, h⟩ := s.resetDin_cases <;> rw [h] <;> exact ⟨rfl, rfl, rfl, rfl, rfl, rfl, rfl, rfl⟩

/-! ### the CRU path -/

/-- A cycle that selects the peripheral drives the bridge and clocks the peripheral, and touches nothing else. -/
theorem State.cruSelected_eq (s : State) (clk out : Bool) (k : CruSub) (r : Bool) :
    s.cruSelected clk out k r = { s with
      periph := s.periph.advance true clk out k r s.rx
      ports := ⟨s.ports.dataIn, s.periph.sense k, s.ports.waits, true, clk, out, k⟩ } := rfl

/-- A cycle that does not select the peripheral draws `cruin`, clocks the peripheral, and touches nothing else. -/
theorem State.cruDeselected_eq (s : State) (clk out : Bool) (k : CruSub) (r : Bool) :
    s.cruDeselected clk out k r = { s with
      periph := s.periph.advance false clk out k r s.rx
      ports := ⟨s.ports.dataIn, Config.anyBit s.bitDraws, s.ports.waits, false, clk, out, k⟩
      bitDraws := s.bitDraws + 1 } := rfl

/-! ### the cycle -/

@[simp] theorem andThen_next (s : State) (f : State → Host.Outcome State Fault Refusal) :
    andThen (.next s) f = f s := rfl

@[simp] theorem State.fetch_drive (s : State) (i : Inputs) : (s.drive i).fetch = i := rfl

/-- The inputs of a cycle are the first pending ones, or the environment's. -/
theorem State.fetch_cases (s : State) :
    (∃ is, s.pending = s.fetch :: is) ∨ (s.pending = [] ∧ s.fetch = Config.environment s.cycle s.din s.ports.cruin) := by
  unfold State.fetch
  cases h : s.pending with
  | nil => exact .inr ⟨rfl, rfl⟩
  | cons i is => exact .inl ⟨is, rfl⟩

end Sys2Proof.Machine
end

