-- ==== Sys2Proof/Laws/PerInstr.lean ====
section
/-! SUPPORT. Facts about every operation as a term of Instr, one lemma per constructor. -/

namespace Sys2Proof.Laws

/-- The bits of a control word, from the fields it packs (R53). -/
theorem controlWord_getLsbD (v : CycleVector) (k : Nat) (hk : k < 20) :
    (controlWord v).getLsbD k =
      if k < 16 then v.addr.getLsbD k
      else if k = 16 then v.rd else if k = 17 then v.wr else if k = 18 then v.cruclk else v.reset := by
  simp only [controlWord, BitVec.getLsbD_append, BitVec.getLsbD_ofBool]
  rcases Nat.lt_or_ge k 16 with h | h
  · simp [h]
  · interval_cases k <;> simp

/-- A row matches a control word when every masked bit is as its pattern has it. -/
theorem covers_iff (r : OpcodeRow) (cw : ControlWord) :
    r.covers cw = true ↔ ∀ k < 20, (cw.getLsbD k && r.mask.getLsbD k) = r.pattern.getLsbD k := by
  unfold OpcodeRow.covers
  rw [beq_iff_eq]
  constructor
  · intro h k _; rw [← h, BitVec.getLsbD_and]
  · intro h; exact BitVec.eq_of_getLsbD_eq fun k hk => by rw [BitVec.getLsbD_and]; exact h k hk

/-- A row covers an encoded cycle when the masked wires are as its pattern has them. -/
theorem covers_controlWord (r : OpcodeRow) (v : CycleVector)
    (h : ∀ k < 20, ((if k < 16 then v.addr.getLsbD k else if k = 16 then v.rd else if k = 17 then v.wr
      else if k = 18 then v.cruclk else v.reset) && r.mask.getLsbD k) = r.pattern.getLsbD k) :
    r.covers (controlWord v) = true := by
  rw [covers_iff]
  intro k hk
  rw [controlWord_getLsbD v k hk]
  exact h k hk

/-- The address bits a select of the peripheral compares are all 0 (R82). -/
theorem peripheralSelect_bits (a : Word) (h : Machine.peripheralSelect a = true) (k : Nat) (h6 : 6 ≤ k) (h15 : k < 16) :
    a.getLsbD k = false := by
  simp only [Machine.peripheralSelect, beq_iff_eq, Machine.cruHi] at h
  have := congrArg (fun b => b.getLsbD (k - 6)) h
  simpa [BitVec.getLsbD_extractLsb', show k - 6 < 10 by omega, show 6 + (k - 6) = k by omega] using this

/-- The ten address bits a select of the peripheral compares, when all are 0 (R82). -/
theorem peripheralSelect_of_bits (a : Word) (h : ∀ k, 6 ≤ k → k < 16 → a.getLsbD k = false) :
    Machine.peripheralSelect a = true := by
  simp only [Machine.peripheralSelect, beq_iff_eq, Machine.cruHi]
  apply BitVec.eq_of_getLsbD_eq
  intro k hk
  simp [hk, h (6 + k) (by omega) (by omega)]

end Sys2Proof.Laws

namespace Sys2Proof.Laws.RowMatch

/-- A well-formed operation's control word matches a row of the opcode table that carries its mnemonic (R56 to R58). -/
def Statement (i : Instr) : Prop :=
  i.wellFormed = true → ∃ r ∈ memRows ++ cruRows, r.mnemonic = i.mnemonic ∧ r.covers (encodeWord i) = true

theorem romIdle (c : Bool) (a : Word) : Statement (.romIdle c a) := by
  intro h
  simp only [Instr.wellFormed, Machine.romSelect, Machine.bank, Bool.not_eq_true'] at h
  refine ⟨⟨"ROM.IDLE", 0xB8000, 0x00000⟩, by decide, rfl, covers_controlWord _ _ fun k hk => ?_⟩
  (interval_cases k <;> simp [encode]); simpa using h

theorem romRd (c : Bool) (a : Word) : Statement (.romRd c a) := by
  intro h
  simp only [Instr.wellFormed, Machine.romSelect, Machine.bank, Bool.not_eq_true'] at h
  refine ⟨⟨"ROM.RD", 0xB8000, 0x10000⟩, by decide, rfl, covers_controlWord _ _ fun k hk => ?_⟩
  (interval_cases k <;> simp [encode]); simpa using h

theorem romWr (c : Bool) (a v : Word) : Statement (.romWr c a v) := by
  intro h
  simp only [Instr.wellFormed, Machine.romSelect, Machine.bank, Bool.not_eq_true'] at h
  refine ⟨⟨"ROM.WR", 0xB8000, 0x20000⟩, by decide, rfl, covers_controlWord _ _ fun k hk => ?_⟩
  (interval_cases k <;> simp [encode]); simpa using h

theorem romRw (c : Bool) (a v : Word) : Statement (.romRw c a v) := by
  intro h
  simp only [Instr.wellFormed, Machine.romSelect, Machine.bank, Bool.not_eq_true'] at h
  refine ⟨⟨"ROM.RW", 0xB8000, 0x30000⟩, by decide, rfl, covers_controlWord _ _ fun k hk => ?_⟩
  (interval_cases k <;> simp [encode]); simpa using h

theorem ramIdle (c : Bool) (a : Word) : Statement (.ramIdle c a) := by
  intro h
  simp only [Instr.wellFormed, Machine.ramSelect, Machine.bank] at h
  refine ⟨⟨"RAM.IDLE", 0xB8000, 0x08000⟩, by decide, rfl, covers_controlWord _ _ fun k hk => ?_⟩
  (interval_cases k <;> simp [encode]); simpa using h

theorem ramRd (c : Bool) (a : Word) : Statement (.ramRd c a) := by
  intro h
  simp only [Instr.wellFormed, Machine.ramSelect, Machine.bank] at h
  refine ⟨⟨"RAM.RD", 0xB8000, 0x18000⟩, by decide, rfl, covers_controlWord _ _ fun k hk => ?_⟩
  (interval_cases k <;> simp [encode]); simpa using h

theorem ramWr (c : Bool) (a v : Word) : Statement (.ramWr c a v) := by
  intro h
  simp only [Instr.wellFormed, Machine.ramSelect, Machine.bank] at h
  refine ⟨⟨"RAM.WR", 0xB8000, 0x28000⟩, by decide, rfl, covers_controlWord _ _ fun k hk => ?_⟩
  (interval_cases k <;> simp [encode]); simpa using h

theorem ramRw (c : Bool) (a v : Word) : Statement (.ramRw c a v) := by
  intro h
  simp only [Instr.wellFormed, Machine.ramSelect, Machine.bank] at h
  refine ⟨⟨"RAM.RW", 0xB8000, 0x38000⟩, by decide, rfl, covers_controlWord _ _ fun k hk => ?_⟩
  (interval_cases k <;> simp [encode]); simpa using h

theorem rstRom (c w d : Bool) (a : Word) : Statement (.rstRom c w d a) := by
  intro h
  simp only [Instr.wellFormed, Machine.romSelect, Machine.bank, Bool.not_eq_true'] at h
  refine ⟨⟨"RST.ROM", 0x88000, 0x80000⟩, by decide, rfl, covers_controlWord _ _ fun k hk => ?_⟩
  (interval_cases k <;> simp [encode]); simpa using h

theorem rstRam (c d : Bool) (a : Word) : Statement (.rstRam c d a) := by
  intro h
  simp only [Instr.wellFormed, Machine.ramSelect, Machine.bank] at h
  refine ⟨⟨"RST.RAM", 0xA8000, 0x88000⟩, by decide, rfl, covers_controlWord _ _ fun k hk => ?_⟩
  (interval_cases k <;> simp [encode]); simpa using h

theorem rstRamWr (c d : Bool) (a v : Word) : Statement (.rstRamWr c d a v) := by
  intro h
  simp only [Instr.wellFormed, Machine.ramSelect, Machine.bank] at h
  refine ⟨⟨"RST.RAMWR", 0xA8000, 0xA8000⟩, by decide, rfl, covers_controlWord _ _ fun k hk => ?_⟩
  (interval_cases k <;> simp [encode]); simpa using h

theorem cruStrobe (r w d : Bool) (a : Word) (b : Bool) : Statement (.cruStrobe r w d a b) := by
  intro h
  have hb := peripheralSelect_bits a h
  refine ⟨⟨"CRU.STROBE", 0x4FFC0, 0x40000⟩, by decide, rfl, covers_controlWord _ _ fun k hk => ?_⟩
  rcases Nat.lt_or_ge k 6 with h6 | h6
  · interval_cases k <;> simp [encode]
  · rcases Nat.lt_or_ge k 16 with h16 | h16
    · have := hb k h6 h16
      interval_cases k <;> simp [encode] <;> simpa using this
    · interval_cases k <;> simp [encode]

theorem cruSense (r w d : Bool) (a : Word) (b : Bool) : Statement (.cruSense r w d a b) := by
  intro h
  have hb := peripheralSelect_bits a h
  refine ⟨⟨"CRU.SENSE", 0x4FFC0, 0x00000⟩, by decide, rfl, covers_controlWord _ _ fun k hk => ?_⟩
  rcases Nat.lt_or_ge k 6 with h6 | h6
  · interval_cases k <;> simp [encode]
  · rcases Nat.lt_or_ge k 16 with h16 | h16
    · have := hb k h6 h16
      interval_cases k <;> simp [encode] <;> simpa using this
    · interval_cases k <;> simp [encode]

/-- The row of `CRU.OFF` for the highest set bit `j` of `addr[15:6]` (R58): bits 15 down to j are compared. -/
theorem cruOff_row (r c w d : Bool) (a : Word) (b : Bool) (j : Nat) (hj6 : 6 ≤ j) (hj : j < 16)
    (hset : a.getLsbD j = true) (hclear : ∀ k, j < k → k < 16 → a.getLsbD k = false) :
    ∃ row ∈ memRows ++ cruRows, row.mnemonic = "CRU.OFF" ∧ row.covers (encodeWord (.cruOff r c w d a b)) = true := by
  refine ⟨⟨"CRU.OFF", BitVec.ofNat 20 (0x10000 - 2 ^ j), BitVec.ofNat 20 (2 ^ j)⟩, ?_, rfl,
    covers_controlWord _ _ fun k hk => ?_⟩
  · interval_cases j <;> decide
  · rcases Nat.lt_or_ge k 16 with h16 | h16
    · rcases Nat.lt_trichotomy k j with hlt | rfl | hgt
      · have hm : (BitVec.ofNat 20 (0x10000 - 2 ^ j)).getLsbD k = false := by
          interval_cases j <;> interval_cases k <;> rfl
        have hp : (BitVec.ofNat 20 (2 ^ j)).getLsbD k = false := by
          interval_cases j <;> interval_cases k <;> rfl
        simp only [hm, hp, Bool.and_false]
      · have hm : (BitVec.ofNat 20 (0x10000 - 2 ^ k)).getLsbD k = true := by interval_cases k <;> rfl
        have hp : (BitVec.ofNat 20 (2 ^ k)).getLsbD k = true := by interval_cases k <;> rfl
        simp only [hm, hp, encode, if_pos h16, hset, Bool.and_true]
      · have hp : (BitVec.ofNat 20 (2 ^ j)).getLsbD k = false := by
          interval_cases j <;> interval_cases k <;> rfl
        simp only [hp, encode, if_pos h16, hclear k hgt h16, Bool.false_and]
    · have hm : (BitVec.ofNat 20 (0x10000 - 2 ^ j)).getLsbD k = false := by
        interval_cases j <;> interval_cases k <;> rfl
      have hp : (BitVec.ofNat 20 (2 ^ j)).getLsbD k = false := by
        interval_cases j <;> interval_cases k <;> rfl
      simp only [hm, hp, Bool.and_false]

/-- The highest set bit among `addr[j:6]`, if there is one. -/
theorem highest_set_bit (a : Word) (n : Nat) (hn : n ≤ 10) (h : ∀ k, 6 + n ≤ k → k < 16 → a.getLsbD k = false)
    (hne : Machine.peripheralSelect a = false) :
    ∃ j, 6 ≤ j ∧ j < 16 ∧ a.getLsbD j = true ∧ ∀ k, j < k → k < 16 → a.getLsbD k = false := by
  induction n with
  | zero => rw [peripheralSelect_of_bits a fun k h6 h16 => h k (by omega) h16] at hne; cases hne
  | succ n ih =>
    cases hb : a.getLsbD (6 + n) with
    | true => exact ⟨6 + n, by omega, by omega, hb, fun k hk h16 => h k (by omega) h16⟩
    | false =>
      refine ih (by omega) fun k hk h16 => ?_
      rcases Nat.eq_or_lt_of_le hk with rfl | hlt
      · exact hb
      · exact h k (by omega) h16

theorem cruOff (r c w d : Bool) (a : Word) (b : Bool) : Statement (.cruOff r c w d a b) := by
  intro h
  simp only [Instr.wellFormed, Bool.not_eq_true'] at h
  obtain ⟨j, h6, h16, hset, hclear⟩ := highest_set_bit a 10 (le_refl 10) (fun k h1 h2 => absurd h2 (by omega)) h
  exact cruOff_row r c w d a b j h6 h16 hset hclear

end Sys2Proof.Laws.RowMatch
end

