-- ==== Sys2Proof/Laws/Run.lean ====
section
/-! SUPPORT. The host's run of the machine, one step at a time. -/

namespace Sys2Proof.Machine

/-- No step is the state itself. -/
theorem core_run_zero (s : State) : Host.Core.run core 0 s = .next s := rfl

/-- One step more is the step and then the rest of the run. -/
theorem core_run_succ (k : Nat) (s : State) :
    Host.Core.run core (k + 1) s = andThen (step s) (Host.Core.run core k) := by
  have e := Host.Core.run.eq_2 core s k
  cases h : step s with
  | next t =>
    have h' : core.step s = .next t := h
    rw [h'] at e; exact e
  | fault r =>
    have h' : core.step s = .fault r := h
    rw [h'] at e; exact e
  | refused r =>
    have h' : core.step s = .refused r := h
    rw [h'] at e; exact e

end Sys2Proof.Machine
end

