-- ==== Sys2Proof/Tests/Slice0.lean ====
section
/-! SUPPORT. The model's own tests. Every expected value is one that spec/95_test_vectors.md writes down (the table is
named before each group) or hand work on a rule named there; no value was taken from the model. The witnesses at the
end show, for each statement with hypotheses, operands and a state that meet all of them together. -/

namespace Sys2Proof.Tests

open Sys2Proof Sys2Proof.Machine Sys2Proof.Safety

/-! ## The fixtures of 95_test_vectors.md -/

/-- `ROM_IMAGE_T(i) = 0xA000 + i`, the parameter `RAM_RW_SAME_ADDR`, and `DIN_RESET`. RAM word 3 and those above are the
unknown `I[k]`. -/
def testCfg (m : RwSameAddr) (d : Option Word) : Cfg where
  refFreqHz := 12000000
  refPeriod := 0
  reqFreqHz := none
  romImage := Config.tabulate (fun i => BitVec.ofNat 16 (0xA000 + i)) 4096 0
  ramInit := [0x1111, 0x0101, 0x3333]
  romShape := Config.romShape
  ramShape := Config.ramShape
  rwSameAddr := m
  dinReset := d
  waits := ⟨2, 3⟩

/-- The start state of T-MEM and T-CRU: `DIN = 0x5555`, `RAM[0] = 0x1111`, `RAM[2] = 0x2222`, and `LatchPeriph` with
`L[9] = 1` alone. -/
def testState (m : RwSameAddr) (d : Option Word) : State where
  cfg := testCfg m d
  din := 0x5555
  ram := [(2, 0x2222)]
  periph := .latch 0x200
  cycle := 7
  pending := []
  rx := false
  ports := Ports.initial
  wordDraws := 0
  bitDraws := 0

/-- The start state with `OLD` and `DIN_RESET` absent. -/
def s0 : State := testState .old none

/-- The start state with `NEW` and `DIN_RESET = 0x0000`. -/
def s1 : State := testState .new (some 0)

/-- The inputs of a control word and its two operands, with `rx = 0`. -/
def inputs (cw : ControlWord) (d : Word) (b : Bool) : Inputs := ⟨vectorOf cw d b, false⟩

/-- What is asked of the next state of an outcome. -/
def nextIs (p : State → Bool) : Host.Outcome State Fault Refusal → Bool
  | .next t => p t
  | .fault _ => false
  | .refused _ => false

/-- One cycle of a control word and its operands, from a state, ends in a next state of which `p` holds. -/
def cycleIs (s : State) (cw : ControlWord) (d : Word) (b : Bool) (p : State → Bool) : Bool :=
  nextIs p (step (s.drive (inputs cw d b)))

/-! ## WellFormed: each check refuses an ill-formed term -/

theorem test_wf_romIdle : (Instr.romIdle false 0x8000).wellFormed = false := by decide
theorem test_wf_romRd : (Instr.romRd false 0xFFFF).wellFormed = false := by decide
theorem test_wf_romWr : (Instr.romWr false 0x8000 1).wellFormed = false := by decide
theorem test_wf_romRw : (Instr.romRw true 0x8002 1).wellFormed = false := by decide
theorem test_wf_ramIdle : (Instr.ramIdle false 0x7FFF).wellFormed = false := by decide
theorem test_wf_ramRd : (Instr.ramRd false 0x0000).wellFormed = false := by decide
theorem test_wf_ramWr : (Instr.ramWr false 0x7FFE 1).wellFormed = false := by decide
theorem test_wf_ramRw : (Instr.ramRw false 0x4000 1).wellFormed = false := by decide
theorem test_wf_rstRom : (Instr.rstRom false false false 0x8000).wellFormed = false := by decide
theorem test_wf_rstRam : (Instr.rstRam false false 0x7FFF).wellFormed = false := by decide
theorem test_wf_rstRamWr : (Instr.rstRamWr false false 0x0000 1).wellFormed = false := by decide
theorem test_wf_cruStrobe : (Instr.cruStrobe false false false 0x0040 true).wellFormed = false := by decide
theorem test_wf_cruSense : (Instr.cruSense false false false 0x803F false).wellFormed = false := by decide
theorem test_wf_cruOff : (Instr.cruOff false true false false 0x003F false).wellFormed = false := by decide

/-! ## Decode: words written out from the fields reset, cruclk, wr, rd, addr (T-ENC), both operations of the cycle -/

theorem test_decode_romIdle_strobe : decode 0b01000000000000111110 =
    .ok (.romIdle true 0x003E, .cruStrobe false false false 0x003E false) := by decide
theorem test_decode_romRd_off : decode 0b00010111111111111111 =
    .ok (.romRd false 0x7FFF, .cruOff false false false true 0x7FFF false) := by decide
theorem test_decode_romWr_sense : decode 0b00100000000000010000 =
    .ok (.romWr false 0x0010 0, .cruSense false true false 0x0010 false) := by decide
theorem test_decode_romRw_sense : decode 0b00110000000000000000 =
    .ok (.romRw false 0x0000 0, .cruSense false true true 0x0000 false) := by decide
theorem test_decode_ramIdle : decode 0b01001000000000000000 =
    .ok (.ramIdle true 0x8000, .cruOff false true false false 0x8000 false) := by decide
theorem test_decode_ramRd : decode 0b00011111111111111111 =
    .ok (.ramRd false 0xFFFF, .cruOff false false false true 0xFFFF false) := by decide
theorem test_decode_ramWr : decode 0b00101000000000000100 =
    .ok (.ramWr false 0x8004 0, .cruOff false false true false 0x8004 false) := by decide
theorem test_decode_ramRw : decode 0b00111000000000000000 =
    .ok (.ramRw false 0x8000 0, .cruOff false false true true 0x8000 false) := by decide
theorem test_decode_rstRom_strobe : decode 0b11110000000000000000 =
    .ok (.rstRom true true true 0x0000, .cruStrobe true true true 0x0000 false) := by decide
theorem test_decode_rstRam : decode 0b10011000000000000000 =
    .ok (.rstRam false true 0x8000, .cruOff true false false true 0x8000 false) := by decide
theorem test_decode_rstRamWr : decode 0b10111000000000000010 =
    .ok (.rstRamWr false true 0x8002 0, .cruOff true false true true 0x8002 false) := by decide
theorem test_decode_sense_last : decode 0b00000000000000111111 =
    .ok (.romIdle false 0x003F, .cruSense false false false 0x003F false) := by decide
theorem test_decode_off_first : decode 0b00000000000001000000 =
    .ok (.romIdle false 0x0040, .cruOff false false false false 0x0040 false) := by decide
theorem test_decode_too_wide : decode 0b100000000000000000000 = .error (.widerThanControlWord 0x100000) := by decide

/-- The operand wires reach the operations that name them (R54). -/
theorem test_decode_operands :
    decodeMem (vectorOf 0b00101000000000000100 0xBEEF true) = .ramWr false 0x8004 0xBEEF ∧
    decodeCru (vectorOf 0b01000000000000010010 0xBEEF true) = .cruStrobe false false false 0x0012 true := by decide

/-- The host's one-operation view of a word (log 11). -/
theorem test_decodeTableWord :
    decodeTableWord 24 0b00010000000000000000 = some (.romRd false 0) ∧
    decodeTableWord 24 0b01000000000000000000 = some (.cruStrobe false false false 0 false) ∧
    decodeTableWord 24 0b00000100000000000000 = some (.cruOff false false false false 0x4000 false) ∧
    decodeTableWord 24 0b100000000000000000000 = none := by decide

/-! ## The address decoder (T-DEC) and the word indices (T-IDX) -/

/-- The five signals in the table's order. -/
def selects (a : Word) (rd wr : Bool) : List Bool :=
  [romSelect a, ramSelect a, writeRamStrobe a wr, readRamStrobe a rd, peripheralSelect a]

theorem test_dec_periph_last : selects 0x003F false true = [true, false, false, false, true] := by decide
theorem test_dec_periph_past : selects 0x0040 true false = [true, false, false, false, false] := by decide
theorem test_dec_rom_last : selects 0x7FFF true true = [true, false, false, false, false] := by decide
theorem test_dec_ram_write : selects 0x8001 false true = [false, true, true, false, false] := by decide
theorem test_dec_ram_read : selects 0x803F true false = [false, true, false, true, false] := by decide
theorem test_dec_ram_both : selects 0xFFFF true true = [false, true, true, true, false] := by decide
theorem test_idx_rom : [0x0FFE, 0x1FFF, 0x2000, 0x4002, 0x7FFF].map romIdx = [0x7FF, 0xFFF, 0x000, 0x001, 0xFFF] := by
  decide
theorem test_idx_ram : [0x8001, 0xBFFE, 0xC000, 0xFFFF].map ramIdx = [0x0000, 0x1FFF, 0x2000, 0x3FFF] := by decide
theorem test_idx_cru : [0x0012, 0x003F, 0x0040, 0x007E, 0x8012].map cruSub = [9, 31, 0, 31, 9] := by decide

/-! ## One cycle of each memory-path operation (T-MEM) -/

theorem test_romIdle : cycleIs s0 0x07FFE 0 false (fun t => t.din == 0xAFFF && t.ports.dataIn == 0x5555) = true := by
  decide +kernel
theorem test_romRd_odd : cycleIs s0 0x10001 0 false (fun t => t.din == 0xA000 && t.ram == [(2, 0x2222)]) = true := rfl
theorem test_romRd_second_image : cycleIs s0 0x12004 0 false (fun t => t.din == 0xA002) = true := rfl
theorem test_romWr_dropped : cycleIs s0 0x20004 0xDEAD false
    (fun t => t.din == 0xA002 && t.ramWord 2 == 0x2222) = true := rfl
theorem test_romRw_dropped : cycleIs s0 0x30004 0xDEAD false
    (fun t => t.din == 0xA002 && t.ramWord 2 == 0x2222) = true := rfl
theorem test_ramIdle_keeps_ram : cycleIs s0 0x08004 0 false
    (fun t => t.ram == [(2, 0x2222)] && t.wordDraws == 1) = true := rfl
theorem test_ramRd : cycleIs s0 0x18000 0 false (fun t => t.din == 0x1111 && t.ram == [(2, 0x2222)]) = true := rfl
theorem test_ramRd_odd : cycleIs s0 0x18005 0 false (fun t => t.din == 0x2222) = true := rfl
theorem test_ramWr : cycleIs s0 0x28004 0xBEEF false
    (fun t => t.ramWord 2 == 0xBEEF && t.ramWord 0 == 0x1111 && t.ramWord 1 == 0x0101) = true := rfl
theorem test_ramWr_same : cycleIs s0 0x28004 0x2222 false (fun t => t.ram == [(2, 0x2222)]) = true := rfl
theorem test_ramRw_old : cycleIs s0 0x38004 0xBEEF false
    (fun t => t.din == 0x2222 && t.ramWord 2 == 0xBEEF) = true := rfl
theorem test_ramRw_new : cycleIs s1 0x38004 0xBEEF false
    (fun t => t.din == 0xBEEF && t.ramWord 2 == 0xBEEF) = true := rfl
theorem test_rstRom : cycleIs s1 0xB0004 0xDEAD false (fun t => t.din == 0 && t.ram == [(2, 0x2222)]) = true := rfl
theorem test_rstRam : cycleIs s1 0x98000 0 false (fun t => t.din == 0 && t.ramWord 0 == 0x1111) = true := rfl
theorem test_rstRamWr : cycleIs s1 0xB8004 0xBEEF false (fun t => t.din == 0 && t.ramWord 2 == 0xBEEF) = true := rfl
theorem test_rstRamWr_draws : cycleIs s0 0xA8004 0xBEEF false
    (fun t => t.wordDraws == 1 && t.ramWord 2 == 0xBEEF) = true := rfl

/-- Writing the word that the initial array holds takes the entry out again: the canonical form. -/
theorem test_ramWr_initial_word : cycleIs s0 0x28004 0x3333 false (fun t => t.ram == []) = true := rfl

/-! ## One cycle of each CRU-path operation (T-CRU) -/

/-- The bridge's outputs in the table's order: `per_sel`, `per_cruclk`, `per_cruout`, and `per_s`. -/
def bridge (t : State) : Bool × Bool × Bool × CruSub := (t.ports.perSel, t.ports.perCruclk, t.ports.perCruout, t.ports.perS)

theorem test_cruSense : cycleIs s0 0x00012 0 false
    (fun t => bridge t == (true, false, false, 9) && t.ports.cruin && t.periph == .latch 0x200) = true := rfl
theorem test_cruSense_data_bit_alone : cycleIs s0 0x00013 0 true
    (fun t => bridge t == (true, false, true, 9) && t.ports.cruin && t.periph == .latch 0x200) = true := rfl
theorem test_cruStrobe_old_bit_answers : cycleIs s0 0x40012 0 false
    (fun t => bridge t == (true, true, false, 9) && t.ports.cruin && t.periph == .latch 0) = true := rfl
theorem test_cruStrobe_last : cycleIs s0 0x4003F 0 true
    (fun t => bridge t == (true, true, true, 31) && !t.ports.cruin && t.periph == .latch 0x80000200) = true := rfl
theorem test_cruOff_pulse_lost : cycleIs s0 0x40052 0 false
    (fun t => bridge t == (false, true, false, 9) && t.periph == .latch 0x200) = true := rfl
theorem test_cruOff_bank : cycleIs s0 0x48012 0 false
    (fun t => bridge t == (false, true, false, 9) && t.periph == .latch 0x200) = true := rfl

/-- Program P3, cycle 10: a ROM read and a strobe in one cycle, both take effect. -/
theorem test_both_paths : cycleIs s0 0x50002 0 true
    (fun t => t.din == 0xA001 && t.periph == .latch 0x202 && t.cycle == 8 && t.ports.waits == 3) = true := rfl

/-! ## From the state after reset -/

theorem test_reset_runs_a_strobe :
    nextIs (fun t => t.cycle == 1 && t.ports.perSel && t.ports.perCruclk && t.ports.perS == 0)
      (step (State.reset.withFetchWord 24 0x40000)) = true := rfl

/-! ## The clock manager (T-CLK), construction, the stimulus notation -/

theorem test_clk_pass : clockConfig 12000000 none = .ok ⟨.passThrough, 12000000, 12⟩ := by decide
theorem test_clk_equal : clockConfig 12000000 (some 12000000) = .ok ⟨.passThrough, 12000000, 12⟩ := by decide
theorem test_clk_lowest : clockConfig 12000000 (some 1000000) = .ok ⟨.synthesized, 1000000, 1⟩ := by decide
theorem test_clk_highest : clockConfig 12000000 (some 63000000) = .ok ⟨.synthesized, 63000000, 63⟩ := by decide
theorem test_clk_limit : clockConfig 12000000 (some 64000000) = .error .badFrequency := by decide
theorem test_clk_multiple : clockConfig 12000000 (some 50500000) = .error .badFrequency := by decide
theorem test_clk_zero : clockConfig 12000000 (some 0) = .error .badFrequency := by decide
theorem test_clk_negative : clockConfig 12000000 (some (-1000000)) = .error .badFrequency := by decide
theorem test_clk_bad_reference : clockConfig 12500000 none = .error .badFrequency := by decide
theorem test_clk_request_overrides : clockConfig 12500000 (some 25000000) = .ok ⟨.synthesized, 25000000, 25⟩ := by decide

/-- The first kind in the order of R147 (decision D26, log 21) is reported where two checks fail. -/
theorem test_construct_order :
    (match construct { testCfg .old none with reqFreqHz := some 0, romShape := ⟨16, 8, 4096⟩ } 0 with
      | .error e => e == .badFrequency | .ok _ => false) = true ∧
    (match construct { testCfg .old none with romShape := ⟨16, 8, 0⟩ } 0 with
      | .error e => e == .widthMismatch | .ok _ => false) = true ∧
    (match construct { testCfg .old none with ramShape := ⟨16, 16, 0⟩ } 0 with
      | .error e => e == .malformedConfig | .ok _ => false) = true := by decide

/-- Lines of programs P1 to P4: the control words the spec writes beside them. -/
theorem test_assemble_lines :
    (assemble (.mnemonic .ramWr 0xFFFF (some 0x0F0F) none)).toOption.map controlWord = some 0x2FFFF ∧
    (assemble (.mnemonic .romIdle 0x0052 none (some (.offClk false)))).toOption.map controlWord = some 0x40052 ∧
    (assemble (expand .reset)).toOption.map controlWord = some 0x80040 ∧
    (assemble (expand (.testBit 31))).toOption.map controlWord = some 0x0003E := by decide
theorem test_assemble_region : assemble (.mnemonic .ramRd 0x7FFF none none) = .error .regionMismatch := by decide
theorem test_assemble_range : assemble (.mnemonic .romRd 0x0040 none (some .sense)) = .error .rangeMismatch := by decide

/-- Program P4, line 1, as the spec prints it. -/
theorem test_fieldText : fieldText ⟨true, false, true, true, 0x8002, 0x5A5A, false⟩ =
    "CYC reset=1 addr=8002 rd=1 wr=1 dout=5A5A cruclk=0 cruout=0" := by decide

/-! ## Witnesses -/

/-- The image of the fixtures has the length that construction demands. -/
theorem witness_image_length : s0.cfg.romImage.length = 4096 := Config.tabulate_length _ _ _

/-- A non-empty canonical memory. -/
theorem witness_memory_wf : Memory.wf s0.cfg.ramInit s0.ram = true := by decide

theorem witness_StepRunsTheDecodedOperations : s0.pending = [] := rfl

/-- Each format's operations at the first and the last address of their range. -/
theorem witness_DecodeOfEncodeIsTheOperation :
    (Instr.romRw true 0x7FFF 0xFFFF).wellFormed = true ∧ (Instr.rstRamWr true true 0x8000 0xFFFF).wellFormed = true ∧
    (Instr.cruStrobe true true true 0x003F true).wellFormed = true ∧
    (Instr.cruOff true true true true 0x0040 true).wellFormed = true := by decide

theorem witness_TableWordRunsNext : (0xFFFFF : Nat) < 2 ^ 20 := by decide

theorem witness_RomAndRamSelectsPartition : (0x7FFF : Word).getLsbD 15 = (0x0000 : Word).getLsbD 15 ∧
    readRamStrobe 0x8000 true = true := by decide

theorem witness_PeripheralSelectDependsOnHighBitsOnly :
    ∀ k, 6 ≤ k → k ≤ 15 → (0x003F : Word).getLsbD k = (0x0000 : Word).getLsbD k := by
  intro k h1 h2; interval_cases k <;> decide

theorem witness_RomCyclesLoadTheRomWord : s0.cfg.romImage.length = 4096 ∧ (0x7FFF : Word).toNat / 2 % 4096 = 4095 :=
  ⟨witness_image_length, by decide⟩

theorem witness_RamReadLoadsTheRamWord : lookup s0.ram ((0x8001 : Word).toNat / 2 % 16384) = none ∧
    s0.cfg.ramInit[(0x8001 : Word).toNat / 2 % 16384]? = some 0x1111 := by decide

theorem witness_RamWriteStoresOneWord : Memory.wf s0.cfg.ramInit s0.ram = true ∧ 3 ≠ (ramIdx 0x8004).toNat := by
  decide

/-- Each clause of the arbitration: `OLD`, `NEW`, and a written word equal to the old one. -/
theorem witness_RamReadWriteArbitration :
    (Memory.wf s0.cfg.ramInit s0.ram = true ∧ s0.cfg.rwSameAddr = .old ∧ 0x2222 = s0.ramWord (ramIdx 0x8004).toNat) ∧
    (Memory.wf s1.cfg.ramInit s1.ram = true ∧ s1.cfg.rwSameAddr = .new) := by decide

theorem witness_ResetCyclesResetDinOnly : s1.cfg.dinReset = some 0 ∧ s0.cfg.dinReset = none := ⟨rfl, rfl⟩

theorem witness_ResetCycleStillWritesRam :
    (Memory.wf s1.cfg.ramInit s1.ram = true ∧ s1.cfg.dinReset = some 0) ∧
    (Memory.wf s0.cfg.ramInit s0.ram = true ∧ s0.cfg.dinReset = none) := by decide

theorem witness_UnselectedCruCycleDropsThePulse :
    ∃ t : State, exec (.cruOff false true false false 0x0040 true) s0 = .next t := ⟨_, rfl⟩

theorem witness_LatchFixtureSetsOneLatch : s0.periph = .latch 0x200 := rfl

theorem witness_MemoryAndCruPathsCommute :
    (Instr.ramWr false 0x8004 0xBEEF).format = .mem ∧ (Instr.cruStrobe false false false 0x0012 false).format = .cru :=
  ⟨rfl, rfl⟩

/-- Two states and two cycles that agree on the memory path only. -/
theorem witness_MemoryPathIgnoresCru :
    let s' := { s0 with periph := .latch 0, din := 0 }
    let i := inputs 0x18004 0 false
    let i' : Inputs := ⟨vectorOf 0x58004 0 true, true⟩
    s0.cfg = s'.cfg ∧ s0.ram = s'.ram ∧ s0.wordDraws = s'.wordDraws ∧ i.bus.reset = i'.bus.reset ∧ i.bus.wr = i'.bus.wr ∧
    i.bus.rd = i'.bus.rd ∧ i.bus.addr = i'.bus.addr ∧ i.bus.dataOut = i'.bus.dataOut ∧
    (∃ t, step (s0.drive i) = .next t) ∧ (∃ t, step (s'.drive i') = .next t) :=
  ⟨rfl, rfl, rfl, rfl, rfl, rfl, rfl, rfl, ⟨_, rfl⟩, ⟨_, rfl⟩⟩

/-- Two states and two cycles that agree on the CRU path only. -/
theorem witness_CruPathIgnoresMemory :
    let s' := { s1 with din := 0, ram := [] }
    let i := inputs 0x40012 0 true
    let i' := inputs 0x70012 0xBEEF true
    s0.periph = s'.periph ∧ s0.bitDraws = s'.bitDraws ∧ i.bus.reset = i'.bus.reset ∧ i.bus.cruclk = i'.bus.cruclk ∧
    i.bus.addr = i'.bus.addr ∧ i.bus.cruout = i'.bus.cruout ∧ i.rx = i'.rx ∧
    (∃ t, step (s0.drive i) = .next t) ∧ (∃ t, step (s'.drive i') = .next t) :=
  ⟨rfl, rfl, rfl, rfl, rfl, rfl, rfl, ⟨_, rfl⟩, ⟨_, rfl⟩⟩

/-- The last address that selects the peripheral and the first that does not. -/
theorem witness_OutputsOfOneCycle : (0x003F : Word).toNat < 0x40 ∧ ¬(0x0040 : Word).toNat < 0x40 := by decide

theorem witness_BridgeRoutesSelectDataAndSubaddress : (0x003F : Word).toNat < 0x40 := by decide

/-- A write strobe, and a cycle at the last ROM address whose `wr` strobes nothing. -/
theorem witness_RamWriteRule : Memory.wf s0.cfg.ramInit s0.ram = true ∧
    writeRamStrobe (inputs 0x28000 0xBEEF false).bus.addr (inputs 0x28000 0xBEEF false).bus.wr = true ∧
    1 ≠ (ramIdx (inputs 0x28000 0xBEEF false).bus.addr).toNat ∧
    writeRamStrobe (inputs 0x27FFF 0xBEEF false).bus.addr (inputs 0x27FFF 0xBEEF false).bus.wr = false := by
  decide

theorem witness_RamReadRule :
    let i := inputs 0x18000 0 false
    i.bus.reset = false ∧ readRamStrobe i.bus.addr i.bus.rd = true ∧ writeRamStrobe i.bus.addr i.bus.wr = false := by
  decide

theorem witness_RomMirrorsEvery4096Words : (0x1FFE : Word).toNat / 2 % 4096 = (0x7FFF : Word).toNat / 2 % 4096 := by
  decide

/-- A run that writes RAM and tries to write ROM, and a cycle in the ROM region. -/
theorem witness_RomIsImmuneToWrites : s0.cfg.romImage.length = 4096 ∧
    (∃ t, runDriven [inputs 0x20004 0xDEAD false, inputs 0x28004 0xBEEF false] s0 = .next t) ∧
    romSelect (inputs 0x20004 0xDEAD false).bus.addr = true := ⟨witness_image_length, ⟨_, rfl⟩, by decide⟩

/-- A run with two writes of the word asked about. -/
theorem witness_RamHoldsTheLastWrite : Memory.wf s0.cfg.ramInit s0.ram = true ∧
    ∃ t, runDriven [inputs 0x28004 0xBEEF false, inputs 0x38005 0x1234 false] s0 = .next t :=
  ⟨witness_memory_wf, ⟨_, rfl⟩⟩

/-- Written at 0x8004, another word written and the ROM addressed with `wr` between, read at the odd alias 0x8005. -/
theorem witness_RamRoundTrip :
    let i := inputs 0x28004 0xBEEF false
    let j := inputs 0x18005 0 false
    let is := [inputs 0x2FFFF 0x0F0F false, inputs 0x20004 0xDEAD false]
    Memory.wf s0.cfg.ramInit s0.ram = true ∧ writeRamStrobe i.bus.addr i.bus.wr = true ∧
    (∀ x ∈ is, writesWord (ramIdx i.bus.addr) x.bus = false) ∧ j.bus.reset = false ∧
    readRamStrobe j.bus.addr j.bus.rd = true ∧ j.bus.wr = false ∧ ramIdx j.bus.addr = ramIdx i.bus.addr := by
  decide

/-- Two reset cycles, one of them with `wr` in the ROM region, of an instance that has `DIN_RESET`. -/
theorem witness_ResetRunKeepsMemory :
    let is := [inputs 0xB7FFE 0xDEAD false, inputs 0x98000 0 false]
    is ≠ [] ∧ (∀ i ∈ is, i.bus.reset = true ∧ writeRamStrobe i.bus.addr i.bus.wr = false) ∧
    s1.cfg.dinReset = some 0 ∧ ∃ t, runDriven is s1 = .next t :=
  ⟨by decide, by decide, rfl, ⟨_, rfl⟩⟩

/-- Two instances that differ in `RAM_RW_SAME_ADDR`, `DIN_RESET` and `DIN`. -/
theorem witness_PortableReadIsDetermined :
    let s' := { s1 with din := 0, wordDraws := 5 }
    let i := inputs 0x18004 0 false
    portableRead i.bus = true ∧ s0.cfg.romImage = s'.cfg.romImage ∧ (∀ j, s0.ramWord j = s'.ramWord j) ∧
    (∃ t, step (s0.drive i) = .next t) ∧ (∃ t, step (s'.drive i) = .next t) :=
  ⟨by decide, rfl, fun _ => rfl, ⟨_, rfl⟩, ⟨_, rfl⟩⟩

/-- A run that idles on the RAM, where the two circuits may differ, and ends in a read and write of one word. -/
theorem witness_SynchronousCircuitRefinesDin :
    let c : SyncCircuit := ⟨0, 0, false, s0.ram⟩
    let i := inputs 0x38004 0xBEEF false
    c.ram = s0.ram ∧ (∀ x ∈ [inputs 0x08004 0 false] ++ [i], x.bus.reset = false) ∧
    dataInDetermined s0.cfg i.bus = true ∧ ∃ t, runDriven ([inputs 0x08004 0 false] ++ [i]) s0 = .next t :=
  ⟨rfl, by decide, by decide, ⟨_, rfl⟩⟩

theorem witness_EveryStepKeepsTheInvariant :
    Inv s0 ∧ ∃ t, step (s0.drive (inputs 0x28004 0xBEEF false)) = .next t :=
  ⟨⟨by decide +kernel, witness_memory_wf⟩, ⟨_, rfl⟩⟩

theorem witness_CanonicalMemoriesAreEqualData :
    let m := writeMem s0.cfg.ramInit s0.ram 0 0xBEEF
    let m' := writeMem s0.cfg.ramInit (writeMem s0.cfg.ramInit [] 0 0xBEEF) 2 0x2222
    Memory.wf s0.cfg.ramInit m = true ∧ Memory.wf s0.cfg.ramInit m' = true ∧
    (∀ i < 16384, readMem s0.cfg.ramInit m i = readMem s0.cfg.ramInit m' i) :=
  ⟨by decide, by decide, fun _ _ => rfl⟩

/-- Both hypotheses of the clock rule, without a request, with the reference requested, and with another request. -/
theorem witness_ClockManagerAsOneFunction :
    ∀ x ∈ ([(none, 12000000, .passThrough), (some 12000000, 12000000, .passThrough), (some 64000000, 64000000, .synthesized)] :
      List (Option Int × Int × ClockMode)),
    (x.1 = none ∨ x.1 = some 12000000 → x.2.1 = 12000000 ∧ x.2.2 = .passThrough) ∧
    (¬(x.1 = none ∨ x.1 = some 12000000) → x.1 = some x.2.1 ∧ x.2.2 = .synthesized) := by decide

/-- The first and the last of the 63 legal frequencies, as a reference and as a request. -/
theorem witness_LegalFrequenciesAreOneTo63MHz :
    (1 ≤ 1 ∧ 1 ≤ 63 ∧ effectiveHz 1000000 none = 1000000 * (1 : Nat)) ∧
    (1 ≤ 63 ∧ 63 ≤ 63 ∧ effectiveHz 12500000 (some 63000000) = 1000000 * (63 : Nat)) := by decide

theorem witness_ConstructionRefusesBadRecords : ∃ s, construct s0.cfg 0x5555 = .ok s := by
  have h : (construct s0.cfg 0x5555).toBool = true := by decide +kernel
  cases e : construct s0.cfg 0x5555 with
  | ok s => exact ⟨s, rfl⟩
  | error k => rw [e] at h; cases h

/-- An image one word short is malformed, and so is one a word too long. -/
theorem witness_ConstructionRefusesImageLengths :
    ∀ n ∈ [4095, 4097],
      (match construct { s0.cfg with romImage := Config.tabulate (fun _ => 0) n 0 } 0 with
        | .error e => e == .malformedConfig | .ok _ => false) = true := by decide +kernel

/-- The two widths of a block differ, and a legal record otherwise. -/
theorem witness_ConstructionRefusesWidths :
    construct { s0.cfg with ramShape := ⟨16, 8, 16384⟩ } 0 = .error .widthMismatch := rfl

/-- An assembled line of each kind of CRU part at the edge of its range, and an address that contradicts a mnemonic. -/
theorem witness_AssembledLineSelectsItsOperations :
    (∃ v, assemble (.mnemonic .romRd 0x003F none (some (.strobe true))) = .ok v) ∧
    (∃ v, assemble (.mnemonic .romIdle 0x003E none (some .sense)) = .ok v) ∧
    (∃ v, assemble (.mnemonic .romRd 0x0040 none (some .off)) = .ok v) ∧
    (∃ v, assemble (.mnemonic .ramWr 0xFFFF (some 1) (some (.offClk true))) = .ok v) ∧
    (∃ v, assemble (.mnemonic .rstRam 0x8000 none none) = .ok v) ∧ memOpBank .ramRd ≠ bank 0x7FFF ∧
    (memOpBank .romRd = bank 0x0040 ∧ cruOpFits 0x0040 (some (.strobe true)) = false) ∧
    (memOpBank .romRd = bank 0x003F ∧ cruOpFits 0x003F (some .off) = false) :=
  ⟨⟨_, rfl⟩, ⟨_, rfl⟩, ⟨_, rfl⟩, ⟨_, rfl⟩, ⟨_, rfl⟩, by decide⟩

theorem witness_SetBitThenTestBit : s0.periph = .latch 0x200 := rfl

end Sys2Proof.Tests
end

section
/-! The clock-domain manager (spec/40_clock_config.md R67 to R76): what its mode, its effective frequency, its validity
check and the whole manager answer, each said once, and the rule R76 assembled from these. -/

namespace Sys2Proof.Machine

/-! ### Mode and effective frequency (R68, R69) -/

theorem clockMode_eq_passThrough_iff {ref : Int} {req : Option Int} :
    clockMode ref req = .passThrough ↔ req = none ∨ req = some ref := by
  cases req with
  | none => simp [clockMode]
  | some r => simp [clockMode]

theorem clockMode_eq_synthesized_iff {ref : Int} {req : Option Int} :
    clockMode ref req = .synthesized ↔ ¬(req = none ∨ req = some ref) := by
  rw [← clockMode_eq_passThrough_iff]
  cases clockMode ref req <;> decide

theorem effectiveHz_of_passThrough {ref : Int} {req : Option Int} (h : clockMode ref req = .passThrough) :
    effectiveHz ref req = ref := by
  simp only [effectiveHz, h]

theorem effectiveHz_of_synthesized {ref r : Int} (h : clockMode ref (some r) = .synthesized) :
    effectiveHz ref (some r) = r := by
  simp only [effectiveHz, h]

/-! ### The validity check (R70) and the whole manager -/

/-- The check of R70 in the form in which R76 writes its refusal. -/
theorem legalFrequency_eq_false_iff {eff : Int} :
    legalFrequency eff = false ↔ eff ≤ 0 ∨ eff % 1000000 ≠ 0 ∨ 64000000 ≤ eff := by
  simp only [legalFrequency, Config.freqUnitHz, Config.freqLimitHz, Bool.and_eq_false_iff, decide_eq_false_iff_not,
    not_lt, or_assoc, ne_eq]

theorem clockConfig_of_illegal {ref : Int} {req : Option Int} (h : legalFrequency (effectiveHz ref req) = false) :
    clockConfig ref req = .error .badFrequency := by
  simp [clockConfig, h]

theorem clockConfig_of_legal {ref : Int} {req : Option Int} (h : legalFrequency (effectiveHz ref req) = true) :
    clockConfig ref req =
      .ok ⟨clockMode ref req, effectiveHz ref req, (effectiveHz ref req / 1000000).toNat⟩ := by
  rw [clockConfig, if_pos h]; rfl

/-- The manager in terms of its own mode and effective frequency, with the condition of R76. -/
theorem clockConfig_eq_ite (ref : Int) (req : Option Int) :
    clockConfig ref req =
      if effectiveHz ref req ≤ 0 ∨ effectiveHz ref req % 1000000 ≠ 0 ∨ 64000000 ≤ effectiveHz ref req then
        .error .badFrequency
      else .ok ⟨clockMode ref req, effectiveHz ref req, (effectiveHz ref req / 1000000).toNat⟩ := by
  split_ifs with hbad
  · exact clockConfig_of_illegal (legalFrequency_eq_false_iff.mpr hbad)
  · exact clockConfig_of_legal (Bool.eq_true_of_not_eq_false (mt legalFrequency_eq_false_iff.mp hbad))

/-- R68 and R69 determine the two values: a frequency and a mode that meet both rules are the manager's own. -/
theorem effectiveHz_clockMode_unique {ref : Int} {req : Option Int} {eff : Int} {mode : ClockMode}
    (hpass : req = none ∨ req = some ref → eff = ref ∧ mode = .passThrough)
    (hsynth : ¬(req = none ∨ req = some ref) → req = some eff ∧ mode = .synthesized) :
    effectiveHz ref req = eff ∧ clockMode ref req = mode := by
  by_cases hreq : req = none ∨ req = some ref
  · obtain ⟨rfl, rfl⟩ := hpass hreq
    have hmode := clockMode_eq_passThrough_iff.mpr hreq
    exact ⟨effectiveHz_of_passThrough hmode, hmode⟩
  · obtain ⟨rfl, rfl⟩ := hsynth hreq
    have hmode := clockMode_eq_synthesized_iff.mpr hreq
    exact ⟨effectiveHz_of_synthesized hmode, hmode⟩

/-- Settles O46: R68 and R69 fix the mode and the effective frequency, and the manager answers from these two by R76. -/
theorem clockManagerAsOneFunction : Obligations.ClockManagerAsOneFunction := by
  intro ref req eff mode hpass hsynth
  obtain ⟨rfl, rfl⟩ := effectiveHz_clockMode_unique hpass hsynth
  exact clockConfig_eq_ite ref req

end Sys2Proof.Machine
end

section
/-! The address decoder (spec/41_address_decoder.md R77 to R85): which address bits each of its five signals reads. The
laws R83 to R85 follow, R83 because no signal reads bit 0, the only bit XOR 1 changes. -/

namespace Sys2Proof.Machine

/-! ### The two region selects and the RAM strobes (R78 to R81) -/

theorem romSelect_eq_not_ramSelect (a : Word) : romSelect a = !ramSelect a := rfl

theorem ramSelect_congr {a b : Word} (h15 : a.getLsbD 15 = b.getLsbD 15) : ramSelect a = ramSelect b := h15

theorem romSelect_congr {a b : Word} (h15 : a.getLsbD 15 = b.getLsbD 15) : romSelect a = romSelect b := by
  simp only [romSelect_eq_not_ramSelect, ramSelect_congr h15]

theorem writeRamStrobe_eq_true_iff {a : Word} {wr : Bool} :
    writeRamStrobe a wr = true ↔ ramSelect a = true ∧ wr = true := Bool.and_eq_true_iff

theorem readRamStrobe_eq_true_iff {a : Word} {rd : Bool} :
    readRamStrobe a rd = true ↔ ramSelect a = true ∧ rd = true := Bool.and_eq_true_iff

theorem writeRamStrobe_congr {a b : Word} (h15 : a.getLsbD 15 = b.getLsbD 15) (wr : Bool) :
    writeRamStrobe a wr = writeRamStrobe b wr := by
  rw [Bool.eq_iff_iff, writeRamStrobe_eq_true_iff, writeRamStrobe_eq_true_iff, ramSelect_congr h15]

theorem readRamStrobe_congr {a b : Word} (h15 : a.getLsbD 15 = b.getLsbD 15) (rd : Bool) :
    readRamStrobe a rd = readRamStrobe b rd := by
  rw [Bool.eq_iff_iff, readRamStrobe_eq_true_iff, readRamStrobe_eq_true_iff, ramSelect_congr h15]

/-- Settles O9: `rom_select` is the negation of `ram_select`, which is bit 15 and gates both strobes. -/
theorem romAndRamSelectsPartition : Obligations.RomAndRamSelectsPartition := by
  intro a
  refine ⟨?partition, fun b h15 => ⟨romSelect_congr h15, ramSelect_congr h15⟩, fun strobe hstrobe => ?strobes⟩
  case partition => rw [romSelect_eq_not_ramSelect, Bool.not_xor_self]
  case strobes =>
    have hram : ramSelect a = true := by
      rw [writeRamStrobe_eq_true_iff, readRamStrobe_eq_true_iff, or_self] at hstrobe
      exact hstrobe.1
    rw [romSelect_eq_not_ramSelect, hram, Bool.not_true]

/-! ### The peripheral select (R82) -/

/-- `cru_hi` reads bits 6 to 15 of the address only. -/
theorem cruHi_congr {a b : Word} (hhigh : ∀ k, 6 ≤ k → k ≤ 15 → a.getLsbD k = b.getLsbD k) : cruHi a = cruHi b := by
  apply BitVec.eq_of_getLsbD_eq
  intro j hj
  simp only [cruHi, BitVec.getLsbD_extractLsb', hhigh (6 + j) (by omega) (by omega)]

/-- Settles O10: `peripheral_select` compares `cru_hi`, which reads the bits 6 to 15, with 0. -/
theorem peripheralSelectDependsOnHighBitsOnly : Obligations.PeripheralSelectDependsOnHighBitsOnly := by
  intro a b hhigh
  rw [peripheralSelect, peripheralSelect, cruHi_congr hhigh]

/-! ### Bit 0 (R83) -/

/-- `a XOR 1` differs from `a` in bit 0 alone. -/
theorem getLsbD_xor_one (a : Word) {k : Nat} (hk : 1 ≤ k) : (a ^^^ 1).getLsbD k = a.getLsbD k := by
  have hbit : (1 : Word).getLsbD k = false :=
    BitVec.getLsbD_one.trans (by rw [decide_eq_false (show ¬k = 0 by omega), Bool.and_false])
  rw [BitVec.getLsbD_xor, hbit, Bool.xor_false]

/-- Settles O11: the selects and strobes read bit 15 and `peripheral_select` bits 6 to 15, which `a XOR 1` keeps. -/
theorem decoderIgnoresBitZero : Obligations.DecoderIgnoresBitZero := by
  intro a rd wr
  have h15 : (a ^^^ 1).getLsbD 15 = a.getLsbD 15 := getLsbD_xor_one a (by decide)
  have hhigh : ∀ k, 6 ≤ k → k ≤ 15 → (a ^^^ 1).getLsbD k = a.getLsbD k :=
    fun k hk _ => getLsbD_xor_one a (by omega)
  exact ⟨romSelect_congr h15, ramSelect_congr h15, writeRamStrobe_congr h15 wr, readRamStrobe_congr h15 rd,
    peripheralSelectDependsOnHighBitsOnly _ _ hhigh⟩

end Sys2Proof.Machine
end

section
/-! The port `data_in` (spec/42_data_mux.md R95). It is driven from `DIN` where the cycle begins, and no operation of
either path drives it again: the memory path loads `DIN` or RAM and the CRU path drives the bridge's outputs. -/

namespace Sys2Proof.Machine

/-! ### What the shared operations leave of the outputs -/

@[simp] theorem State.drawDin_ports (s : State) : s.drawDin.ports = s.ports := rfl

@[simp] theorem State.resetDin_ports (s : State) : s.resetDin.ports = s.ports := by
  obtain ⟨-, -, -, -, -, -, hports, -⟩ := s.resetDin_frame
  exact hports

@[simp] theorem State.cruSelected_dataIn (s : State) (clk out : Bool) (k : CruSub) (r : Bool) :
    (s.cruSelected clk out k r).ports.dataIn = s.ports.dataIn := rfl

@[simp] theorem State.cruDeselected_dataIn (s : State) (clk out : Bool) (k : CruSub) (r : Bool) :
    (s.cruDeselected clk out k r).ports.dataIn = s.ports.dataIn := rfl

/-! ### Operations and the cycle -/

/-- Every operation answers a next state and leaves `data_in` as the start of the cycle drove it. -/
theorem exec_next_keeps_dataIn (op : Instr) (s : State) :
    ∃ t : State, exec op s = .next t ∧ t.ports.dataIn = s.ports.dataIn := by
  cases op with
  | romIdle | romRd | romWr | romRw | ramRd => exact ⟨_, rfl, congrArg Ports.dataIn (s.loadDin_ports _)⟩
  | ramRw _ a v => exact ⟨_, rfl, congrArg Ports.dataIn ((s.writeRam a v).loadDin_ports _)⟩
  | ramIdle => exact ⟨_, rfl, congrArg Ports.dataIn s.drawDin_ports⟩
  | ramWr _ a v => exact ⟨_, rfl, congrArg Ports.dataIn (s.writeRam a v).drawDin_ports⟩
  | rstRom | rstRam => exact ⟨_, rfl, congrArg Ports.dataIn s.resetDin_ports⟩
  | rstRamWr _ _ a v => exact ⟨_, rfl, congrArg Ports.dataIn (s.writeRam a v).resetDin_ports⟩
  | cruStrobe | cruSense => exact ⟨_, rfl, s.cruSelected_dataIn _ _ _ _⟩
  | cruOff => exact ⟨_, rfl, s.cruDeselected_dataIn _ _ _ _⟩

/-- A cycle of driven inputs is its memory-path operation and then its CRU-path operation, ended by the clock edge. -/
theorem step_drive_of_exec {s u t : State} {i : Inputs}
    (hmem : exec (decodeMem i.bus) ((s.drive i).beginCycle i) = .next u)
    (hcru : exec (decodeCru i.bus) u = .next t) : step (s.drive i) = .next t.endCycle := by
  rw [step, State.fetch_drive, hmem, andThen_next, hcru, andThen_next]

/-- Settles O31: the start of the cycle drives `data_in` from `DIN`, and neither operation of the cycle changes it. -/
theorem dataInIsTheDinRegister : Obligations.DataInIsTheDinRegister := by
  intro s i
  obtain ⟨u, hmem, hu⟩ := exec_next_keeps_dataIn (decodeMem i.bus) ((s.drive i).beginCycle i)
  obtain ⟨t, hcru, ht⟩ := exec_next_keeps_dataIn (decodeCru i.bus) u
  refine ⟨t.endCycle, step_drive_of_exec hmem hcru, ?_⟩
  calc t.endCycle.ports.dataIn
      = u.ports.dataIn := by rw [State.endCycle_ports, ht]
    _ = s.din := by rw [hu, State.beginCycle_ports, State.drive_din]

end Sys2Proof.Machine
end

section
/-! A read of the RAM block (spec/43_memory_blocks.md R105). The strobes of the cycle select `RAM.RD`, which loads `DIN`;
the CRU-path operation of the same cycle keeps `DIN`; the next cycle shows it on `data_in` (R95). -/

namespace Sys2Proof.Machine

/-! ### The memory path -/

/-- Without the write strobe of an addressed RAM, `wr` itself is 0 (R80). -/
theorem wr_eq_false_of_writeRamStrobe {a : Word} {wr : Bool} (hram : ramSelect a = true)
    (hstrobe : writeRamStrobe a wr = false) : wr = false := by
  rwa [writeRamStrobe, hram, Bool.true_and] at hstrobe

/-- The read strobe alone, without reset, is the row `RAM.RD` of R56. -/
theorem decodeMem_of_readRamStrobe {v : CycleVector} (hreset : v.reset = false)
    (hread : readRamStrobe v.addr v.rd = true) (hwrite : writeRamStrobe v.addr v.wr = false) :
    decodeMem v = .ramRd v.cruclk v.addr := by
  obtain ⟨hram, hrd⟩ := readRamStrobe_eq_true_iff.mp hread
  have hbank : bank v.addr = true := hram
  have hwr : v.wr = false := wr_eq_false_of_writeRamStrobe hram hwrite
  rw [decodeMem, hreset, hbank, hwr, hrd]

theorem exec_ramRd (c : Bool) (a : Word) (s : State) : exec (.ramRd c a) s = .next (s.loadDin (s.ramOutput a)) := rfl

/-- The start of a driven cycle leaves every RAM word as it was. -/
theorem State.ramOutput_beginCycle_drive (s : State) (i : Inputs) (a : Word) :
    ((s.drive i).beginCycle i).ramOutput a = s.ramOutput a :=
  State.ramWord_of_eq (by rw [beginCycle_cfg, drive_cfg]) (by rw [beginCycle_ram, drive_ram]) _

/-! ### The CRU path -/

@[simp] theorem State.cruSelected_din (s : State) (clk out : Bool) (k : CruSub) (r : Bool) :
    (s.cruSelected clk out k r).din = s.din := rfl

@[simp] theorem State.cruDeselected_din (s : State) (clk out : Bool) (k : CruSub) (r : Bool) :
    (s.cruDeselected clk out k r).din = s.din := rfl

/-- Each of the three CRU-path operations answers a next state with the same `DIN`. -/
theorem exec_decodeCru_keeps_din (v : CycleVector) (s : State) :
    ∃ t : State, exec (decodeCru v) s = .next t ∧ t.din = s.din := by
  rw [decodeCru]
  cases peripheralSelect v.addr with
  | false => exact ⟨_, rfl, s.cruDeselected_din v.cruclk v.cruout (cruSub v.addr) v.reset⟩
  | true =>
    cases v.cruclk with
    | true => exact ⟨_, rfl, s.cruSelected_din true v.cruout (cruSub v.addr) v.reset⟩
    | false => exact ⟨_, rfl, s.cruSelected_din false v.cruout (cruSub v.addr) v.reset⟩

/-! ### The cycle -/

/-- A cycle whose memory-path operation is `RAM.RD` ends with `DIN` at the word that the RAM held when it began. -/
theorem step_din_of_ramRd {s : State} {i : Inputs} (hdecode : decodeMem i.bus = .ramRd i.bus.cruclk i.bus.addr) :
    ∃ t : State, step (s.drive i) = .next t ∧ t.din = s.ramOutput i.bus.addr := by
  have hmem := exec_ramRd i.bus.cruclk i.bus.addr ((s.drive i).beginCycle i)
  rw [← hdecode, State.ramOutput_beginCycle_drive] at hmem
  obtain ⟨t, hcru, ht⟩ := exec_decodeCru_keeps_din i.bus (((s.drive i).beginCycle i).loadDin (s.ramOutput i.bus.addr))
  exact ⟨t.endCycle, step_drive_of_exec hmem hcru, by rw [State.endCycle_din, ht, State.loadDin_din]⟩

/-- Settles O34: the strobes select `RAM.RD`, which loads `DIN`, and the next cycle drives `data_in` from `DIN`. -/
theorem ramReadRule : Obligations.RamReadRule := by
  intro s i j hreset hread hwrite
  obtain ⟨t, hstep, hdin⟩ := step_din_of_ramRd (s := s) (decodeMem_of_readRamStrobe hreset hread hwrite)
  obtain ⟨u, hnext, hdataIn⟩ := dataInIsTheDinRegister t j
  exact ⟨t, u, hstep, hnext, hdin, hdataIn.trans hdin⟩

end Sys2Proof.Machine
end

section
/-! The bridge's outputs toward the peripheral (spec/44_cru_bridge.md R114, R116, R117). The CRU-path operation drives all
of them from the cycle's inputs, in every state, so the memory-path operation before it does not matter. -/

namespace Sys2Proof.Machine

/-! ### The fields of the address that the bridge reads -/

/-- R114: the peripheral is selected exactly when the address bits 6 to 15 are all 0. -/
theorem peripheralSelect_eq_true_iff {a : Word} :
    peripheralSelect a = true ↔ ∀ k, 6 ≤ k → k ≤ 15 → a.getLsbD k = false where
  mp hsel k h6 h15 := Laws.peripheralSelect_bits a hsel k h6 (Nat.lt_succ_of_le h15)
  mpr hbits := Laws.peripheralSelect_of_bits a fun k h6 h16 => hbits k h6 (Nat.le_of_lt_succ h16)

/-- R117: bit `k` of the sub-address is bit `k + 1` of the address. -/
theorem cruSub_getLsbD (a : Word) {k : Nat} (hk : k < 5) : (cruSub a).getLsbD k = a.getLsbD (k + 1) := by
  rw [cruSub, BitVec.getLsbD_extractLsb', decide_eq_true hk, Bool.true_and, Nat.add_comm]

/-- R117: at the addresses that select the peripheral, the sub-address is the address divided by 2. -/
theorem cruSub_toNat_of_lt {a : Word} (ha : a.toNat < 0x40) : (cruSub a).toNat = a.toNat / 2 :=
  (cruSub_toNat a).trans (Nat.mod_eq_of_lt (by omega))

/-! ### The CRU path and the cycle -/

@[simp] theorem State.cruSelected_ports (s : State) (clk out : Bool) (k : CruSub) (r : Bool) :
    (s.cruSelected clk out k r).ports = ⟨s.ports.dataIn, s.periph.sense k, s.ports.waits, true, clk, out, k⟩ := rfl

@[simp] theorem State.cruDeselected_ports (s : State) (clk out : Bool) (k : CruSub) (r : Bool) :
    (s.cruDeselected clk out k r).ports = ⟨s.ports.dataIn, s.anyBit, s.ports.waits, false, clk, out, k⟩ := rfl

/-- Each of the three CRU-path operations answers a next state and drives every output of the bridge. -/
theorem exec_decodeCru_ports (v : CycleVector) (s : State) :
    ∃ t : State, exec (decodeCru v) s = .next t ∧ t.ports =
      ⟨s.ports.dataIn, cruinOf s v, s.ports.waits, peripheralSelect v.addr, v.cruclk, v.cruout, cruSub v.addr⟩ := by
  rw [decodeCru, cruinOf]
  cases peripheralSelect v.addr with
  | false => exact ⟨_, rfl, s.cruDeselected_ports v.cruclk v.cruout (cruSub v.addr) v.reset⟩
  | true =>
    cases v.cruclk with
    | true => exact ⟨_, rfl, s.cruSelected_ports true v.cruout (cruSub v.addr) v.reset⟩
    | false => exact ⟨_, rfl, s.cruSelected_ports false v.cruout (cruSub v.addr) v.reset⟩

/-- Every driven cycle ends with the bridge's four outputs toward the peripheral routed from its inputs. -/
theorem step_drive_bridge (s : State) (i : Inputs) :
    ∃ t : State, step (s.drive i) = .next t ∧ t.ports.perSel = peripheralSelect i.bus.addr ∧
      t.ports.perCruclk = i.bus.cruclk ∧ t.ports.perCruout = i.bus.cruout ∧ t.ports.perS = cruSub i.bus.addr := by
  obtain ⟨u, hmem, -⟩ := exec_next_keeps_dataIn (decodeMem i.bus) ((s.drive i).beginCycle i)
  obtain ⟨t, hcru, hports⟩ := exec_decodeCru_ports i.bus u
  refine ⟨t.endCycle, step_drive_of_exec hmem hcru, ?_⟩
  simp only [State.endCycle_ports, hports, and_self]

/-- Settles O32: the bridge routes the select, the data bit and the sub-address, whose bits the fields of the address
give. -/
theorem bridgeRoutesSelectDataAndSubaddress : Obligations.BridgeRoutesSelectDataAndSubaddress := by
  intro s i
  obtain ⟨t, hstep, hsel, -, hout, hsub⟩ := step_drive_bridge s i
  refine ⟨t, hstep, hsel, ?selectBits, hout, ?subBits, ?subNumber⟩
  case selectBits => rw [hsel, peripheralSelect_eq_true_iff]
  case subBits => intro k hk; rw [hsub, cruSub_getLsbD i.bus.addr hk]
  case subNumber => intro haddr; rw [hsub, cruSub_toNat_of_lt haddr]

end Sys2Proof.Machine
end

section
/-! The decode of a cycle vector (spec/30_encoding.md): a control word and its cycle vector hold the same bits (R53),
both decodes of a vector are well formed and keep its control word (R60), and the rows of either format partition the control
words, because no two of them agree wherever both masks compare (R56 to R58). -/

namespace Sys2Proof.Machine

/-! ### The packing of the control word (R53) -/

/-- Unpacking a packed vector gives the vector. -/
theorem vectorOf_controlWord (v : CycleVector) : vectorOf (controlWord v) v.dataOut v.cruout = v := by
  obtain ⟨reset, cruclk, wr, rd, addr, dataOut, cruout⟩ := v
  have haddr : (controlWord ⟨reset, cruclk, wr, rd, addr, dataOut, cruout⟩).extractLsb' 0 16 = addr := by
    apply BitVec.eq_of_getLsbD_eq
    intro k hk
    rw [BitVec.getLsbD_extractLsb', Nat.zero_add, Laws.controlWord_getLsbD _ k (by omega), if_pos hk, decide_eq_true hk,
      Bool.true_and]
  simp only [vectorOf, haddr, Laws.controlWord_getLsbD _ _ (show 19 < 20 by decide),
    Laws.controlWord_getLsbD _ _ (show 18 < 20 by decide), Laws.controlWord_getLsbD _ _ (show 17 < 20 by decide),
    Laws.controlWord_getLsbD _ _ (show 16 < 20 by decide)]
  rfl

/-- Packing an unpacked control word gives the control word. -/
theorem controlWord_vectorOf (cw : ControlWord) (d : Word) (b : Bool) : controlWord (vectorOf cw d b) = cw := by
  apply BitVec.eq_of_getLsbD_eq
  intro k hk
  rw [Laws.controlWord_getLsbD _ k hk]
  by_cases h16 : k < 16
  · rw [if_pos h16, vectorOf, BitVec.getLsbD_extractLsb', Nat.zero_add, decide_eq_true h16, Bool.true_and]
  · rw [if_neg h16]
    obtain rfl | rfl | rfl | rfl : k = 16 ∨ k = 17 ∨ k = 18 ∨ k = 19 := by omega
    all_goals rfl

/-- The vector unpacked from an operation's control word and operands is the vector that encodes it. -/
theorem vectorOf_encodeWord (i : Instr) : vectorOf (encodeWord i) (encode i).dataOut (encode i).cruout = encode i :=
  vectorOf_controlWord (encode i)

/-! ### The two decodes (R56, R57, R60) -/

theorem decodeMem_format (v : CycleVector) : (decodeMem v).format = .mem := by
  unfold decodeMem; split <;> rfl

theorem decodeCru_format (v : CycleVector) : (decodeCru v).format = .cru := by
  unfold decodeCru; split <;> rfl

theorem decodeMem_wellFormed (v : CycleVector) : (decodeMem v).wellFormed = true := by
  unfold decodeMem; split <;> simp [Instr.wellFormed, romSelect, ramSelect, *]

theorem decodeCru_wellFormed (v : CycleVector) : (decodeCru v).wellFormed = true := by
  unfold decodeCru; split <;> simp [Instr.wellFormed, *]

/-- The memory-path operation keeps every control bit of its vector. -/
theorem encodeWord_decodeMem (v : CycleVector) : encodeWord (decodeMem v) = controlWord v := by
  unfold decodeMem; split <;> simp [encodeWord, encode, controlWord, *]

/-- The CRU-path operation keeps every control bit of its vector. -/
theorem encodeWord_decodeCru (v : CycleVector) : encodeWord (decodeCru v) = controlWord v := by
  unfold decodeCru; split <;> simp [encodeWord, encode, controlWord, *]

/-- The decoder of a well-formed operation's format reads the operation from the vector that encodes it: its row fixes
the compared wires, and its well-formedness the compared address bits. -/
theorem decodeAs_encode (i : Instr) (hwf : i.wellFormed = true) : decodeAs i.format (encode i) = i := by
  cases i with
  | romIdle | romRd | romWr | romRw | rstRom =>
    have hbank : bank _ = false := (Bool.not_eq_true' _).mp hwf
    simp only [Instr.format, decodeAs, encode, decodeMem, hbank]
  | ramIdle | ramRd | ramWr | ramRw | rstRam | rstRamWr =>
    have hbank : bank _ = true := hwf
    simp only [Instr.format, decodeAs, encode, decodeMem, hbank]
  | cruStrobe | cruSense =>
    have hsel : peripheralSelect _ = true := hwf
    simp only [Instr.format, decodeAs, encode, decodeCru, hsel]
  | cruOff =>
    have hsel : peripheralSelect _ = false := (Bool.not_eq_true' _).mp hwf
    simp only [Instr.format, decodeAs, encode, decodeCru, hsel]

/-- Settles O3: the control word and the operands unpack to the encoding vector, from which the decoder of the
operation's format reads it. -/
theorem decodeOfEncodeIsTheOperation : Obligations.DecodeOfEncodeIsTheOperation := by
  intro i hwf
  rw [vectorOf_encodeWord, decodeAs_encode i hwf]

/-- Settles O4: the packing loses nothing, and both decodes keep format, form and control word. -/
theorem encodeOfDecodeIsTheControlWord : Obligations.EncodeOfDecodeIsTheControlWord := fun v =>
  ⟨vectorOf_controlWord v, decodeMem_format v, decodeMem_wellFormed v, encodeWord_decodeMem v,
    decodeCru_format v, decodeCru_wellFormed v, encodeWord_decodeCru v⟩

/-! ### The rows of the opcode table (R56 to R58) -/

/-- Each well-formed operation has a row of the opcode table with its mnemonic that covers its control word. -/
theorem exists_row_of_wellFormed (i : Instr) (hwf : i.wellFormed = true) :
    ∃ r ∈ memRows ++ cruRows, r.mnemonic = i.mnemonic ∧ r.covers (encodeWord i) = true := by
  cases i with
  | romIdle => exact Laws.RowMatch.romIdle _ _ hwf
  | romRd => exact Laws.RowMatch.romRd _ _ hwf
  | romWr => exact Laws.RowMatch.romWr _ _ _ hwf
  | romRw => exact Laws.RowMatch.romRw _ _ _ hwf
  | ramIdle => exact Laws.RowMatch.ramIdle _ _ hwf
  | ramRd => exact Laws.RowMatch.ramRd _ _ hwf
  | ramWr => exact Laws.RowMatch.ramWr _ _ _ hwf
  | ramRw => exact Laws.RowMatch.ramRw _ _ _ hwf
  | rstRom => exact Laws.RowMatch.rstRom _ _ _ _ hwf
  | rstRam => exact Laws.RowMatch.rstRam _ _ _ hwf
  | rstRamWr => exact Laws.RowMatch.rstRamWr _ _ _ _ hwf
  | cruStrobe => exact Laws.RowMatch.cruStrobe _ _ _ _ _ hwf
  | cruSense => exact Laws.RowMatch.cruSense _ _ _ _ _ hwf
  | cruOff => exact Laws.RowMatch.cruOff _ _ _ _ _ _ hwf

/-- The three mnemonics of format `CRU`. -/
def cruMnemonics : List String := ["CRU.STROBE", "CRU.SENSE", "CRU.OFF"]

/-- An operation is of format `CRU` exactly when its mnemonic is one of the three. -/
theorem mnemonic_mem_cruMnemonics_iff (i : Instr) : i.mnemonic ∈ cruMnemonics ↔ i.format = .cru := by
  cases i <;> simp [cruMnemonics, Instr.mnemonic, Instr.format]

theorem memRows_mnemonic : ∀ r ∈ memRows, r.mnemonic ∉ cruMnemonics := by decide

theorem cruRows_mnemonic : ∀ r ∈ cruRows, r.mnemonic ∈ cruMnemonics := by decide

/-- The memory-path operation of a control word has a covering row among the eleven. -/
theorem exists_memRow (cw : ControlWord) (d : Word) (b : Bool) :
    ∃ r ∈ memRows, r.covers cw = true ∧ (decodeMem (vectorOf cw d b)).mnemonic = r.mnemonic := by
  obtain ⟨r, hrow, hname, hcovers⟩ := exists_row_of_wellFormed _ (decodeMem_wellFormed (vectorOf cw d b))
  rw [encodeWord_decodeMem, controlWord_vectorOf] at hcovers
  refine ⟨r, (List.mem_append.mp hrow).resolve_right fun hcru => ?_, hcovers, hname.symm⟩
  have hformat := (mnemonic_mem_cruMnemonics_iff _).mp (hname ▸ cruRows_mnemonic r hcru)
  rw [decodeMem_format] at hformat
  cases hformat

/-- The CRU-path operation of a control word has a covering row among the twelve. -/
theorem exists_cruRow (cw : ControlWord) (d : Word) (b : Bool) :
    ∃ r ∈ cruRows, r.covers cw = true ∧ (decodeCru (vectorOf cw d b)).mnemonic = r.mnemonic := by
  obtain ⟨r, hrow, hname, hcovers⟩ := exists_row_of_wellFormed _ (decodeCru_wellFormed (vectorOf cw d b))
  rw [encodeWord_decodeCru, controlWord_vectorOf] at hcovers
  refine ⟨r, (List.mem_append.mp hrow).resolve_left fun hmem => memRows_mnemonic r hmem ?_, hcovers, hname.symm⟩
  rw [hname, mnemonic_mem_cruMnemonics_iff, decodeCru_format]

/-- Two rows that cover one control word agree wherever both masks compare. -/
theorem pattern_agrees_of_covers {r r' : OpcodeRow} {cw : ControlWord} (h : r.covers cw = true)
    (h' : r'.covers cw = true) : r.pattern &&& r'.mask = r'.pattern &&& r.mask := by
  rw [← beq_iff_eq.mp h, ← beq_iff_eq.mp h', BitVec.and_assoc, BitVec.and_assoc, BitVec.and_comm r.mask]

theorem memRows_disjoint :
    ∀ r ∈ memRows, ∀ r' ∈ memRows, r.pattern &&& r'.mask = r'.pattern &&& r.mask → r' = r := by decide

theorem cruRows_disjoint :
    ∀ r ∈ cruRows, ∀ r' ∈ cruRows, r.pattern &&& r'.mask = r'.pattern &&& r.mask → r' = r := by decide

/-- Settles O5: the decoded operation's row covers the word, and no other row agrees with it where both compare. -/
theorem memoryRowsPartitionControlWords : Obligations.MemoryRowsPartitionControlWords := by
  intro cw d b
  obtain ⟨r, hrow, hcovers, hname⟩ := exists_memRow cw d b
  exact ⟨r, hrow, hcovers, hname, fun r' hrow' hcovers' =>
    memRows_disjoint r hrow r' hrow' (pattern_agrees_of_covers hcovers hcovers')⟩

/-- Settles O6: the same argument for the twelve rows of the CRU path. -/
theorem cruRowsPartitionControlWords : Obligations.CruRowsPartitionControlWords := by
  intro cw d b
  obtain ⟨r, hrow, hcovers, hname⟩ := exists_cruRow cw d b
  exact ⟨r, hrow, hcovers, hname, fun r' hrow' hcovers' =>
    cruRows_disjoint r hrow r' hrow' (pattern_agrees_of_covers hcovers hcovers')⟩

/-! ### The pairs of operations that occur (R60) -/

/-- The mnemonics of the memory-path operations that are well formed in the ROM region. -/
def romRegionMnemonics : List String := ["ROM.IDLE", "ROM.RD", "ROM.WR", "ROM.RW", "RST.ROM"]

/-- The mnemonics of the memory-path operations that are well formed in the RAM region. -/
def ramRegionMnemonics : List String := ["RAM.IDLE", "RAM.RD", "RAM.WR", "RAM.RW", "RST.RAM", "RST.RAMWR"]

theorem decodeMem_mnemonic_of_rom {v : CycleVector} (h : bank v.addr = false) :
    (decodeMem v).mnemonic ∈ romRegionMnemonics := by
  unfold decodeMem; split <;> simp_all [romRegionMnemonics, Instr.mnemonic]

theorem decodeMem_mnemonic_of_ram {v : CycleVector} (h : bank v.addr = true) :
    (decodeMem v).mnemonic ∈ ramRegionMnemonics := by
  unfold decodeMem; split <;> simp_all [ramRegionMnemonics, Instr.mnemonic]

/-- An address of the RAM region does not select the peripheral: bit 15 is one of the compared bits. -/
theorem peripheralSelect_of_bank {a : Word} (h : bank a = true) : peripheralSelect a = false := by
  rw [Bool.eq_false_iff]
  intro hsel
  exact Bool.false_ne_true ((Laws.peripheralSelect_bits a hsel 15 (by decide) (by decide)).symm.trans h)

theorem decodeCru_of_unselected {v : CycleVector} (h : peripheralSelect v.addr = false) :
    decodeCru v = .cruOff v.reset v.cruclk v.wr v.rd v.addr v.cruout := by
  rw [decodeCru, h]

/-- One cycle vector for each pair of R60, in the order of the two products. -/
def pairVectors : List CycleVector :=
  let cruParts : List (Bool × Word) := [(true, 0x0000), (false, 0x0000), (false, 0x0040)]
  let romParts : List (Bool × Bool × Bool) :=
    [(false, false, false), (false, false, true), (false, true, false), (false, true, true), (true, false, false)]
  let ramParts : List (Bool × Bool × Bool) :=
    [(false, false, false), (false, false, true), (false, true, false), (false, true, true), (true, false, false),
      (true, true, false)]
  (romParts.flatMap fun (reset, wr, rd) => cruParts.map fun (clk, a) => ⟨reset, clk, wr, rd, a, 0, false⟩) ++
    ramParts.map fun (reset, wr, rd) => ⟨reset, false, wr, rd, 0x8000, 0, false⟩

theorem pairVectors_mnemonics :
    pairVectors.map (fun v => ((decodeMem v).mnemonic, (decodeCru v).mnemonic)) =
      romRegionMnemonics.product cruMnemonics ++ ramRegionMnemonics.product ["CRU.OFF"] := by decide

/-- Settles O7: the bank of the address limits the memory-path operation and, in the RAM region, the CRU-path one; a
listed vector shows each pair that is left. -/
theorem reachableOperationPairs : Obligations.ReachableOperationPairs := by
  refine ⟨fun v => ?limits, fun p hp => ?occurs⟩
  case limits =>
    have hcru : (decodeCru v).mnemonic ∈ cruMnemonics := (mnemonic_mem_cruMnemonics_iff _).mpr (decodeCru_format v)
    rw [List.mem_append]
    cases hbank : bank v.addr with
    | false => exact .inl (List.pair_mem_product.mpr ⟨decodeMem_mnemonic_of_rom hbank, hcru⟩)
    | true =>
      have hoff : (decodeCru v).mnemonic ∈ ["CRU.OFF"] := by
        rw [decodeCru_of_unselected (peripheralSelect_of_bank hbank)]
        exact List.mem_singleton.mpr rfl
      exact .inr (List.pair_mem_product.mpr ⟨decodeMem_mnemonic_of_ram hbank, hoff⟩)
  case occurs =>
    obtain ⟨v, -, hv⟩ := List.mem_map.mp (pairVectors_mnemonics ▸ hp : p ∈ pairVectors.map _)
    exact ⟨v, hv⟩

/-- Settles O2: the words are closed terms that the decoder evaluates. -/
theorem namedControlWordsDecode : Obligations.NamedControlWordsDecode := by
  unfold Obligations.NamedControlWordsDecode; decide

end Sys2Proof.Machine
end

section
/-! The decode table in numbers (spec/41_address_decoder.md section 4), and the word indices at an odd address. -/

namespace Sys2Proof.Machine

theorem ramSelect_eq_true_iff {a : Word} : ramSelect a = true ↔ 0x8000 ≤ a.toNat := by
  have hmsb : ramSelect a = decide (0x8000 ≤ a.toNat) := a.msb_eq_decide
  rw [hmsb, decide_eq_true_iff]

theorem romSelect_eq_true_iff {a : Word} : romSelect a = true ↔ a.toNat < 0x8000 := by
  rw [romSelect_eq_not_ramSelect, Bool.not_eq_true', ← Bool.not_eq_true, ramSelect_eq_true_iff, Nat.not_le]

theorem peripheralSelect_eq_true_iff_lt {a : Word} : peripheralSelect a = true ↔ a.toNat < 0x40 := by
  have ha : a.toNat < 65536 := a.isLt
  have hzero : cruHi a = 0 ↔ (cruHi a).toNat = 0 := BitVec.toNat_inj.symm
  rw [peripheralSelect, beq_iff_eq, hzero, cruHi_toNat]
  omega

/-- Settles O12: the region is bit 15, the most significant bit, which gates both strobes, and the peripheral's field is
the quotient by 64. -/
theorem decodeTableInAddresses : Obligations.DecodeTableInAddresses := by
  intro a rd wr
  rw [writeRamStrobe_eq_true_iff, readRamStrobe_eq_true_iff, ramSelect_eq_true_iff]
  exact ⟨romSelect_eq_true_iff, Iff.rfl, Iff.rfl, Iff.rfl, peripheralSelect_eq_true_iff_lt⟩

/-! ### The word indices read no bit 0 (R37) -/

/-- A slice of the address from bit 1 up is the same for `a` and `a XOR 1`. -/
theorem extractLsb'_one_xor_one (a : Word) (n : Nat) : (a ^^^ 1).extractLsb' 1 n = a.extractLsb' 1 n := by
  apply BitVec.eq_of_getLsbD_eq
  intro k _
  rw [BitVec.getLsbD_extractLsb', BitVec.getLsbD_extractLsb', getLsbD_xor_one a (Nat.le_add_right 1 k)]

@[simp] theorem romIdx_xor_one (a : Word) : romIdx (a ^^^ 1) = romIdx a := extractLsb'_one_xor_one a 12
@[simp] theorem ramIdx_xor_one (a : Word) : ramIdx (a ^^^ 1) = ramIdx a := extractLsb'_one_xor_one a 14
@[simp] theorem cruSub_xor_one (a : Word) : cruSub (a ^^^ 1) = cruSub a := extractLsb'_one_xor_one a 5

end Sys2Proof.Machine
end

section
/-! The meanings of the memory-path operations (spec/45_bus_cycles.md sections 2 to 4): the word each loads into `DIN`,
what it stores in RAM, and its frame. The statements read RAM word by word, so what a store does to the words is said
once, in `readMem_writeMem_ramIdx`. -/

namespace Sys2Proof.Machine

/-! ### The ROM region (R126 to R129) -/

/-- Where the image lists the word, the ROM reads it. -/
theorem State.romWord_of_getElem? {s : State} {k : Nat} {w : Word} (h : s.cfg.romImage[k]? = some w) :
    s.romWord k = w := by
  rw [State.romWord, h]

/-- An image of the legal length lists the word that the ROM puts out at any address. -/
theorem State.romImage_getElem?_romOutput {s : State} (hlen : s.cfg.romImage.length = 4096) (a : Word) :
    s.cfg.romImage[a.toNat / 2 % 4096]? = some (s.romOutput a) := by
  have hlt : a.toNat / 2 % 4096 < s.cfg.romImage.length := by omega
  rw [State.romOutput, romIdx_toNat, State.romWord_of_getElem? (List.getElem?_eq_getElem hlt)]
  exact List.getElem?_eq_getElem hlt

/-- Settles O14: all four operations load what the ROM puts out, which is the listed word. -/
theorem romCyclesLoadTheRomWord : Obligations.RomCyclesLoadTheRomWord := fun s _ a _ hlen =>
  ⟨s.romOutput a, State.romImage_getElem?_romOutput hlen a, rfl, rfl, rfl, rfl⟩

/-- What the ROM puts out at an address depends on its word index only. -/
theorem State.romOutput_congr (s : State) {a b : Word} (h : a.toNat / 2 % 4096 = b.toNat / 2 % 4096) :
    s.romOutput a = s.romOutput b := by
  rw [State.romOutput, State.romOutput, romIdx_toNat, romIdx_toNat, h]

/-- A state whose ROM holds its own index at every word. -/
def indexRomState : State :=
  { State.reset with cfg := { Config.theRecord with romImage := Config.tabulate (BitVec.ofNat 16) 4096 0 } }

theorem indexRomState_romOutput (a : Word) : (indexRomState.romOutput a).toNat = a.toNat / 2 % 4096 := by
  have hlt : a.toNat / 2 % 4096 < 4096 := Nat.mod_lt _ (by decide)
  have himage : indexRomState.cfg.romImage[a.toNat / 2 % 4096]? = some (BitVec.ofNat 16 (a.toNat / 2 % 4096)) :=
    (Config.tabulate_getElem? _ 4096 0 _ hlt).trans (by rw [Nat.zero_add])
  rw [State.romOutput, romIdx_toNat, State.romWord_of_getElem? himage, BitVec.toNat_ofNat]
  omega

/-- Settles O35: a read depends on the word index only, and an image that holds its own indices tells two of them
apart. -/
theorem romMirrorsEvery4096Words : Obligations.RomMirrorsEvery4096Words := by
  refine ⟨fun s c a => ?mirror, fun a b => ⟨fun h => ?apart, fun h s => s.romOutput_congr h⟩⟩
  case mirror =>
    have hidx : a.toNat / 2 % 4096 = (BitVec.ofNat 16 (2 * (a.toNat / 2 % 4096))).toNat / 2 % 4096 := by
      rw [BitVec.toNat_ofNat]; omega
    exact congrArg (fun w => Host.Outcome.next (s.loadDin w)) (s.romOutput_congr hidx)
  case apart =>
    rw [← indexRomState_romOutput a, ← indexRomState_romOutput b, h indexRomState]

/-! ### The RAM region (R130 to R133) -/

/-- Settles O15: the word is the next draw. -/
theorem ramIdleLeavesDinFree : Obligations.RamIdleLeavesDinFree := fun s _ _ =>
  ⟨Config.anyWord s.wordDraws, congrArg Host.Outcome.next s.drawDin_eq⟩

/-- A RAM word that no entry lists reads as `RAM_INIT` of its index, where the record gives it. -/
theorem State.ramWord_of_unlisted {s : State} {k : Nat} {w : Word} (hlisted : lookup s.ram k = none)
    (hinit : s.cfg.ramInit[k]? = some w) : s.ramWord k = w := by
  simp only [State.ramWord, readMem, hlisted, unlisted, hinit]

/-- Settles O16: `RAM.RD` loads what the RAM puts out, the word at the index of the address. -/
theorem ramReadLoadsTheRamWord : Obligations.RamReadLoadsTheRamWord := by
  intro s c a
  refine ⟨?_, fun hlisted w => State.ramWord_of_unlisted hlisted⟩
  rw [exec_ramRd, State.ramOutput, ramIdx_toNat]
  rfl

/-- A store at the index of an address: that word reads as stored, its index is (address / 2) mod 16384, and every other
word reads as before (R36, R104). -/
theorem State.readMem_writeRam {s : State} (h : Memory.wf s.cfg.ramInit s.ram = true) (a v : Word) :
    readMem s.cfg.ramInit (s.writeRam a v).ram (ramIdx a).toNat = v ∧ (ramIdx a).toNat = a.toNat / 2 % 16384 ∧
    ∀ j, j ≠ (ramIdx a).toNat → readMem s.cfg.ramInit (s.writeRam a v).ram j = s.ramWord j :=
  ⟨s.ramWord_writeRam_same a v h, ramIdx_toNat a, fun j hj => s.ramWord_writeRam_other a v j hj⟩

/-- Settles O17: the store, and `DIN` at the next draw. -/
theorem ramWriteStoresOneWord : Obligations.RamWriteStoresOneWord := fun s _ a v hwf =>
  ⟨(s.writeRam a v).ram, Config.anyWord s.wordDraws, rfl, State.readMem_writeRam hwf a v⟩

theorem State.readDuringWrite_of_old {s : State} (h : s.cfg.rwSameAddr = .old) (a v : Word) :
    s.readDuringWrite a v = s.ramOutput a := by
  rw [State.readDuringWrite, h]

theorem State.readDuringWrite_of_new {s : State} (h : s.cfg.rwSameAddr = .new) (a v : Word) :
    s.readDuringWrite a v = v := by
  rw [State.readDuringWrite, h]

/-- Where the written word is the old one, both readings of R106 deliver it. -/
theorem State.readDuringWrite_self {s : State} {a v : Word} (h : v = s.ramOutput a) : s.readDuringWrite a v = v := by
  cases hmode : s.cfg.rwSameAddr with
  | old => rw [State.readDuringWrite_of_old hmode, h]
  | new => exact State.readDuringWrite_of_new hmode a v

/-- Settles O18: the store, and `DIN` at the word that R106 delivers. -/
theorem ramReadWriteArbitration : Obligations.RamReadWriteArbitration := fun s _ a v hwf =>
  ⟨(s.writeRam a v).ram, s.readDuringWrite a v, rfl, fun h => State.readDuringWrite_of_old h a v,
    fun h => State.readDuringWrite_of_new h a v, State.readDuringWrite_self, State.readMem_writeRam hwf a v⟩

/-! ### Reset cycles (R134 to R136) -/

theorem State.resetDin_of_some {s : State} {w : Word} (h : s.cfg.dinReset = some w) :
    s.resetDin = { s with din := w } := by
  rw [State.resetDin, h]; rfl

theorem State.resetDin_of_none {s : State} (h : s.cfg.dinReset = none) :
    s.resetDin = { s with din := Config.anyWord s.wordDraws, wordDraws := s.wordDraws + 1 } := by
  rw [State.resetDin, h]; rfl

/-- Settles O19: both operations are the reset of `DIN`. -/
theorem resetCyclesResetDinOnly : Obligations.ResetCyclesResetDinOnly := fun s _ _ _ _ =>
  ⟨fun _ hreset =>
    have h := congrArg Host.Outcome.next (State.resetDin_of_some hreset)
    ⟨h, h⟩,
  fun hreset =>
    have h := congrArg Host.Outcome.next (State.resetDin_of_none hreset)
    ⟨Config.anyWord s.wordDraws, h, h⟩⟩

/-- Settles O20: the store, and then the reset of `DIN`, by `DIN_RESET` or by a draw. -/
theorem resetCycleStillWritesRam : Obligations.ResetCycleStillWritesRam := by
  intro s c rd a v hwf
  cases hreset : s.cfg.dinReset with
  | some d =>
    have hexec : exec (.rstRamWr c rd a v) s = .next { s.writeRam a v with din := d } :=
      congrArg Host.Outcome.next (State.resetDin_of_some hreset)
    refine ⟨(s.writeRam a v).ram, d, s.wordDraws, hexec, fun w hw => ?_, fun h => ?_, State.readMem_writeRam hwf a v⟩
    · exact ⟨Option.some.inj hw, rfl⟩
    · cases h
  | none =>
    have hexec : exec (.rstRamWr c rd a v) s =
        .next { s.writeRam a v with din := Config.anyWord s.wordDraws, wordDraws := s.wordDraws + 1 } :=
      congrArg Host.Outcome.next (State.resetDin_of_none hreset)
    refine ⟨(s.writeRam a v).ram, Config.anyWord s.wordDraws, s.wordDraws + 1, hexec, fun w hw => ?_, fun _ => rfl,
      State.readMem_writeRam hwf a v⟩
    cases hw

end Sys2Proof.Machine
end

section
/-! The meanings of the CRU-path operations (spec/45_bus_cycles.md section 5), the test fixture of
spec/44_cru_bridge.md R124, and the two paths of one cycle, which commute (R47, R125). -/

namespace Sys2Proof.Machine

/-- Settles O21: both operations are the routing of R114 to R118 with the peripheral selected. -/
theorem selectedCruCycleRoutesTheBit : Obligations.SelectedCruCycleRoutesTheBit := fun s reset _ _ a out =>
  ⟨cruSub_toNat a, congrArg Host.Outcome.next (s.cruSelected_eq true out (cruSub a) reset),
    congrArg Host.Outcome.next (s.cruSelected_eq false out (cruSub a) reset)⟩

theorem exec_cruOff (reset clk wr rd : Bool) (a : Word) (out : Bool) (s : State) :
    exec (.cruOff reset clk wr rd a out) s = .next (s.cruDeselected clk out (cruSub a) reset) := rfl

/-- A peripheral that is not selected does not see the pulse, the data bit or the sub-address (R122). -/
theorem PeriphState.advance_deselected (p : PeriphState) (clk clk' out out' : Bool) (k k' : CruSub) (reset rx : Bool) :
    p.advance false clk out k reset rx = p.advance false clk' out' k' reset rx := by
  cases p <;> rfl

/-- Settles O22: `CRU.OFF` clocks the peripheral without a select, which hides pulse, data bit and address from it. -/
theorem unselectedCruCycleDropsThePulse : Obligations.UnselectedCruCycleDropsThePulse := by
  intro s reset clk wr rd a out
  refine ⟨Config.anyBit s.bitDraws, s.periph.advance false clk out (cruSub a) reset s.rx,
    congrArg Host.Outcome.next (s.cruDeselected_eq clk out (cruSub a) reset), ?_⟩
  intro clk' wr' rd' a' out' t ht
  rw [exec_cruOff, State.cruDeselected_eq] at ht
  cases ht
  exact s.periph.advance_deselected _ _ _ _ _ _ _ _

/-! ### The fixture `LatchPeriph` (R124) -/

/-- Setting latch `k` leaves every other latch as it is. -/
theorem setBit_getLsbD (bits : BitVec 32) {k j : Nat} (b : Bool) (hj : j < 32) :
    (setBit bits k b).getLsbD j = if j = k then b else bits.getLsbD j := by
  have hmask : (BitVec.ofNat 32 (2 ^ k)).getLsbD j = decide (k = j) := by
    rw [BitVec.getLsbD_ofNat, decide_eq_true hj, Bool.true_and, Nat.testBit_two_pow]
  cases b with
  | true =>
    rw [setBit, if_pos rfl, BitVec.getLsbD_or, hmask]
    by_cases hjk : j = k
    · simp [hjk]
    · simp [hjk, Ne.symm hjk]
  | false =>
    rw [setBit, if_neg Bool.false_ne_true, BitVec.getLsbD_and, BitVec.getLsbD_not, hmask]
    by_cases hjk : j = k
    · simp [hjk]
    · simp [hjk, Ne.symm hjk, hj]

theorem PeriphState.advance_latch (bits : BitVec 32) (sel clk out : Bool) (k : CruSub) (reset rx : Bool) :
    (PeriphState.latch bits).advance sel clk out k reset rx =
      .latch (if reset then 0 else if perStrobe sel clk then setBit bits k.toNat out else bits) := rfl

/-- Settles O23: a strobe is the update of one latch, and without the strobe only reset changes the latches. -/
theorem latchFixtureSetsOneLatch : Obligations.LatchFixtureSetsOneLatch := by
  intro s bits reset clk wr rd a out hlatch
  refine ⟨⟨_, _, rfl, congrArg (fun p => p.advance true true out (cruSub a) reset s.rx) hlatch, fun j hj => ?strobe⟩,
    ⟨_, rfl, congrArg (fun p => p.advance true false out (cruSub a) reset s.rx) hlatch⟩,
    ⟨_, rfl, congrArg (fun p => p.advance false clk out (cruSub a) reset s.rx) hlatch⟩⟩
  case strobe =>
    cases reset with
    | true => exact BitVec.getLsbD_zero
    | false => exact (setBit_getLsbD bits out hj).trans (by rw [cruSub_toNat]; rfl)

/-! ### The two paths commute (R47) -/

/-- The state with the fields that the memory path may change. -/
def State.withMemPath (s : State) (din : Word) (ram : Memory) (draws : Nat) : State :=
  { s with din := din, ram := ram, wordDraws := draws }

/-- The state with the fields that the CRU path may change. -/
def State.withCruPath (s : State) (periph : PeriphState) (ports : Ports) (draws : Nat) : State :=
  { s with periph := periph, ports := ports, bitDraws := draws }

/-- The reset of `DIN` sets two memory-path fields, to values that no CRU-path field decides. -/
theorem State.resetDin_withCruPath (s : State) (p : PeriphState) (q : Ports) (n : Nat) :
    (s.withCruPath p q n).resetDin =
      (s.withCruPath p q n).withMemPath s.resetDin.din s.ram s.resetDin.wordDraws := by
  obtain ⟨w, hreset, h⟩ | ⟨hreset, h⟩ := s.resetDin_cases
  · rw [State.resetDin_of_some (s := s.withCruPath p q n) hreset, h]; rfl
  · rw [State.resetDin_of_none (s := s.withCruPath p q n) hreset, h]; rfl

/-- A memory-path operation sets the memory-path fields, to values that no CRU-path field decides. -/
theorem exec_withCruPath_of_mem {m : Instr} (hm : m.format = .mem) (s : State) :
    ∃ (d : Word) (r : Memory) (k : Nat), ∀ (p : PeriphState) (q : Ports) (n : Nat),
      exec m (s.withCruPath p q n) = .next ((s.withCruPath p q n).withMemPath d r k) := by
  cases m with
  | romIdle _ a | romRd _ a | romWr _ a | romRw _ a =>
    exact ⟨s.romOutput a, s.ram, s.wordDraws, fun _ _ _ => rfl⟩
  | ramIdle => exact ⟨s.anyWord, s.ram, s.wordDraws + 1, fun _ _ _ => rfl⟩
  | ramRd _ a => exact ⟨s.ramOutput a, s.ram, s.wordDraws, fun _ _ _ => rfl⟩
  | ramWr _ a v => exact ⟨s.anyWord, (s.writeRam a v).ram, s.wordDraws + 1, fun _ _ _ => rfl⟩
  | ramRw _ a v => exact ⟨s.readDuringWrite a v, (s.writeRam a v).ram, s.wordDraws, fun _ _ _ => rfl⟩
  | rstRom | rstRam => exact ⟨_, _, _, fun p q n => congrArg Host.Outcome.next (s.resetDin_withCruPath p q n)⟩
  | rstRamWr _ _ a v =>
    exact ⟨_, _, _, fun p q n => congrArg Host.Outcome.next ((s.writeRam a v).resetDin_withCruPath p q n)⟩
  | cruStrobe | cruSense | cruOff => cases hm

/-- A CRU-path operation sets the CRU-path fields, to values that no memory-path field decides. -/
theorem exec_withMemPath_of_cru {c : Instr} (hc : c.format = .cru) (s : State) :
    ∃ (p : PeriphState) (q : Ports) (n : Nat), ∀ (d : Word) (r : Memory) (k : Nat),
      exec c (s.withMemPath d r k) = .next ((s.withMemPath d r k).withCruPath p q n) := by
  cases c with
  | cruStrobe reset _ _ a out =>
    exact ⟨s.periph.advance true true out (cruSub a) reset s.rx, (s.cruSelected true out (cruSub a) reset).ports,
      s.bitDraws, fun _ _ _ => rfl⟩
  | cruSense reset _ _ a out =>
    exact ⟨s.periph.advance true false out (cruSub a) reset s.rx, (s.cruSelected false out (cruSub a) reset).ports,
      s.bitDraws, fun _ _ _ => rfl⟩
  | cruOff reset clk _ _ a out =>
    exact ⟨s.periph.advance false clk out (cruSub a) reset s.rx, (s.cruDeselected clk out (cruSub a) reset).ports,
      s.bitDraws + 1, fun _ _ _ => rfl⟩
  | _ => cases hc

/-- Settles O27: each path sets its own fields, whatever the other has set. -/
theorem memoryAndCruPathsCommute : Obligations.MemoryAndCruPathsCommute := by
  intro s m c hm hc
  obtain ⟨d, r, k, hmem⟩ := exec_withCruPath_of_mem hm s
  obtain ⟨p, q, n, hcru⟩ := exec_withMemPath_of_cru hc s
  calc andThen (exec m s) (exec c)
      = exec c (s.withMemPath d r k) := congrArg (andThen · (exec c)) (hmem s.periph s.ports s.bitDraws)
    _ = .next ((s.withMemPath d r k).withCruPath p q n) := hcru d r k
    _ = exec m (s.withCruPath p q n) := (hmem p q n).symm
    _ = andThen (exec c s) (exec m) := congrArg (andThen · (exec m)) (hcru s.din s.ram s.wordDraws).symm

end Sys2Proof.Machine
end

section
/-! The whole cycle (spec/45_bus_cycles.md R125): one step is the network of equations. `State.afterCycle` names the
state that a driven cycle leads to, and its fields are the network's; the statements about a cycle are read off these. -/

namespace Sys2Proof.Machine

open Sys2Proof.Safety

/-! ### The operations of a cycle as the network's equations -/

/-- A reset of `DIN` in the network's form (R94). -/
theorem State.resetDin_eq_withMemPath (s : State) :
    s.resetDin = s.withMemPath (s.cfg.dinReset.getD s.anyWord) s.ram
      (if s.cfg.dinReset.isNone then s.wordDraws + 1 else s.wordDraws) := by
  obtain ⟨w, hreset, h⟩ | ⟨hreset, h⟩ := s.resetDin_cases <;> rw [h, hreset] <;> rfl

/-- The memory-path operation of a cycle does to `DIN`, RAM and the draws what R89 and R104 say. -/
theorem exec_decodeMem (v : CycleVector) (s : State) :
    exec (decodeMem v) s = .next (s.withMemPath ((dinNext s v).getD s.anyWord) (ramNext s v)
      (if (dinNext s v).isNone then s.wordDraws + 1 else s.wordDraws)) := by
  unfold decodeMem dinNext memOut ramNext romSelect writeRamStrobe readRamStrobe ramSelect
  cases v.reset with
  | false =>
    cases bank v.addr with
    | false => cases v.wr <;> cases v.rd <;> rfl
    | true => cases v.wr <;> cases v.rd <;> rfl
  | true =>
    cases bank v.addr with
    | false => exact congrArg Host.Outcome.next s.resetDin_eq_withMemPath
    | true =>
      cases v.wr with
      | false => exact congrArg Host.Outcome.next s.resetDin_eq_withMemPath
      | true => exact congrArg Host.Outcome.next (s.writeRam v.addr v.dataOut).resetDin_eq_withMemPath

/-- The CRU-path operation of a cycle does to the peripheral, the outputs and the draws what R114 to R119 say. -/
theorem exec_decodeCru (v : CycleVector) (s : State) :
    exec (decodeCru v) s = .next (s.withCruPath
      (s.periph.advance (peripheralSelect v.addr) v.cruclk v.cruout (cruSub v.addr) v.reset s.rx)
      ⟨s.ports.dataIn, cruinOf s v, s.ports.waits, peripheralSelect v.addr, v.cruclk, v.cruout, cruSub v.addr⟩
      (if peripheralSelect v.addr then s.bitDraws else s.bitDraws + 1)) := by
  rw [decodeCru, cruinOf]
  cases peripheralSelect v.addr with
  | false => rfl
  | true => cases v.cruclk <;> rfl

/-- Settles O24: both operations are the network's equations, and neither reads a field that the other sets. -/
theorem stepIsTheNetwork : Obligations.StepIsTheNetwork := by
  intro s
  rw [step, exec_decodeMem, andThen_next, exec_decodeCru, andThen_next]
  rfl

/-! ### The state after a driven cycle -/

/-- The state that the cycle with inputs `i` leads to. -/
def State.afterCycle (s : State) (i : Inputs) : State := networkCycle (s.drive i) i

theorem step_drive (s : State) (i : Inputs) : step (s.drive i) = .next (s.afterCycle i) := stepIsTheNetwork (s.drive i)

theorem eq_afterCycle_of_step {s t : State} {i : Inputs} (h : step (s.drive i) = .next t) : t = s.afterCycle i := by
  rw [step_drive] at h
  cases h
  rfl

section
variable (s : State) (i : Inputs)

@[simp] theorem State.afterCycle_cfg : (s.afterCycle i).cfg = s.cfg := rfl
theorem State.afterCycle_din : (s.afterCycle i).din = (dinNext s i.bus).getD s.anyWord := rfl
theorem State.afterCycle_ram : (s.afterCycle i).ram = ramNext s i.bus := rfl
theorem State.afterCycle_periph : (s.afterCycle i).periph = s.periph.advance (peripheralSelect i.bus.addr) i.bus.cruclk
    i.bus.cruout (cruSub i.bus.addr) i.bus.reset i.rx := rfl
@[simp] theorem State.afterCycle_cycle : (s.afterCycle i).cycle = s.cycle + 1 := rfl
@[simp] theorem State.afterCycle_pending : (s.afterCycle i).pending = s.pending := rfl
theorem State.afterCycle_ports : (s.afterCycle i).ports = portsOf s i.bus := rfl
theorem State.afterCycle_wordDraws :
    (s.afterCycle i).wordDraws = if (dinNext s i.bus).isNone then s.wordDraws + 1 else s.wordDraws := rfl
theorem State.afterCycle_bitDraws :
    (s.afterCycle i).bitDraws = if peripheralSelect i.bus.addr then s.bitDraws else s.bitDraws + 1 := rfl
end

/-- With nothing pending there is nothing to take off the pending list. -/
theorem networkCycle_eq_afterCycle {s : State} (h : s.pending = []) (i : Inputs) :
    networkCycle s i = s.afterCycle i :=
  have htail : s.pending.tail = s.pending := by rw [h, List.tail_nil]
  congrArg (fun l => { networkCycle s i with pending := l }) htail

/-- Settles O1: the two operations run one after the other from the state in which the cycle begins, and with nothing
pending the environment's inputs are the cycle's. -/
theorem stepRunsTheDecodedOperations : Obligations.StepRunsTheDecodedOperations := by
  refine ⟨fun s i => ⟨decodeMem_wellFormed i.bus, decodeCru_wellFormed i.bus, ?driven⟩, fun s hpending => ?free⟩
  case driven =>
    have hmem := exec_decodeMem i.bus ((s.drive i).beginCycle i)
    exact ⟨_, _, hmem, exec_decodeCru i.bus _, step_drive_of_exec hmem (exec_decodeCru i.bus _)⟩
  case free =>
    have hfetch : s.fetch = Config.environment s.cycle s.din s.ports.cruin := by rw [State.fetch, hpending]
    rw [stepIsTheNetwork, step_drive, hfetch, networkCycle_eq_afterCycle hpending]

theorem namedOperation_cases (v : CycleVector) : namedOperation v = decodeMem v ∨ namedOperation v = decodeCru v := by
  unfold namedOperation
  split
  · exact .inl rfl
  · exact .inr rfl

/-- A number of 20 bits decodes, and the named operation of its cycle is read from it (log 11). -/
theorem decodeTableWord_of_lt {w : Nat} (hw : w < 2 ^ 20) :
    decodeTableWord 24 w = some (namedOperation (vectorOf (BitVec.ofNat 20 w) 0 false)) := by
  have hmod : w % 2 ^ 24 = w := Nat.mod_eq_of_lt (by omega)
  rw [decodeTableWord, hmod, decode, if_pos hw]

/-- Settles O8: the word's cycle is put in front of the pending ones, and every driven cycle runs. -/
theorem tableWordRunsNext : Obligations.TableWordRunsNext := by
  intro s w hw
  have hmod : w % 2 ^ 24 = w := Nat.mod_eq_of_lt (by omega)
  have hdrive : s.withFetchWord 24 w = s.drive ⟨vectorOf (BitVec.ofNat 20 w) 0 false, false⟩ := by
    rw [State.withFetchWord, hmod]
  refine ⟨_, _, s.afterCycle ⟨vectorOf (BitVec.ofNat 20 w) 0 false, false⟩, rfl, decodeTableWord_of_lt hw,
    namedOperation_cases _, ?_, ?_⟩
  · rw [hdrive]
  · rw [hdrive, step_drive]

/-! ### What the network's equations read -/

/-- The network reads the address through the signals of the decoder and the three indices only. -/
theorem networkCycle_congr_addr (s : State) (i : Inputs) {b : Word} (hrom : romSelect b = romSelect i.bus.addr)
    (hwrite : writeRamStrobe b i.bus.wr = writeRamStrobe i.bus.addr i.bus.wr)
    (hread : readRamStrobe b i.bus.rd = readRamStrobe i.bus.addr i.bus.rd)
    (hsel : peripheralSelect b = peripheralSelect i.bus.addr) (hromIdx : romIdx b = romIdx i.bus.addr)
    (hramIdx : ramIdx b = ramIdx i.bus.addr) (hsub : cruSub b = cruSub i.bus.addr) :
    networkCycle s { i with bus := { i.bus with addr := b } } = networkCycle s i := by
  have hromOut : s.romOutput b = s.romOutput i.bus.addr := by rw [State.romOutput, State.romOutput, hromIdx]
  have hramOut : s.ramOutput b = s.ramOutput i.bus.addr := by rw [State.ramOutput, State.ramOutput, hramIdx]
  have hrw : s.readDuringWrite b i.bus.dataOut = s.readDuringWrite i.bus.addr i.bus.dataOut := by
    rw [State.readDuringWrite, State.readDuringWrite, hramOut]
  have hmem : memOut s { i.bus with addr := b } = memOut s i.bus := by
    rw [memOut, memOut, hrom, hwrite, hread, hromOut, hramOut, hrw]
  have hdin : dinNext s { i.bus with addr := b } = dinNext s i.bus := by rw [dinNext, dinNext, hmem]
  have hram : ramNext s { i.bus with addr := b } = ramNext s i.bus := by rw [ramNext, ramNext, hwrite, hramIdx]
  have hports : portsOf s { i.bus with addr := b } = portsOf s i.bus := by
    rw [portsOf, portsOf, cruinOf, cruinOf, hsel, hsub]
  rw [networkCycle, networkCycle, hdin, hram, hports, hsel, hsub]

/-- Settles O13: neither the decoder's signals nor the indices read bit 0 of the address. -/
theorem oddAddressActsAsEvenAddress : Obligations.OddAddressActsAsEvenAddress := by
  intro s i
  obtain ⟨hrom, -, hwrite, hread, hsel⟩ := decoderIgnoresBitZero i.bus.addr i.bus.rd i.bus.wr
  rw [step_drive, step_drive]
  exact congrArg Host.Outcome.next (networkCycle_congr_addr (s.drive i) i hrom hwrite hread hsel (romIdx_xor_one _)
    (ramIdx_xor_one _) (cruSub_xor_one _))

theorem State.romOutput_of_cfg {s s' : State} (hcfg : s.cfg = s'.cfg) (a : Word) : s.romOutput a = s'.romOutput a :=
  State.romWord_of_cfg hcfg _

theorem State.ramOutput_of_eq {s s' : State} (hcfg : s.cfg = s'.cfg) (hram : s.ram = s'.ram) (a : Word) :
    s.ramOutput a = s'.ramOutput a :=
  State.ramWord_of_eq hcfg hram _

theorem State.readDuringWrite_of_eq {s s' : State} (hcfg : s.cfg = s'.cfg) (hram : s.ram = s'.ram) (a v : Word) :
    s.readDuringWrite a v = s'.readDuringWrite a v := by
  rw [State.readDuringWrite, State.readDuringWrite, hcfg, State.ramOutput_of_eq hcfg hram]

/-- Settles O28: the equations of `DIN` and RAM read the record, RAM and the five inputs alone. -/
theorem memoryPathIgnoresCru : Obligations.MemoryPathIgnoresCru := by
  intro s s' t t' i i' hcfg hram hdraws hreset hwr hrd haddr hdata ht ht'
  obtain rfl := eq_afterCycle_of_step ht
  obtain rfl := eq_afterCycle_of_step ht'
  have hdin : dinNext s i.bus = dinNext s' i'.bus := by
    simp only [dinNext, memOut, hreset, hwr, hrd, haddr, hdata, hcfg, State.romOutput_of_cfg hcfg,
      State.ramOutput_of_eq hcfg hram, State.readDuringWrite_of_eq hcfg hram]
  refine ⟨?_, ?_, ?_⟩
  · rw [State.afterCycle_din, State.afterCycle_din, hdin, State.anyWord, State.anyWord, hdraws]
  · rw [State.afterCycle_ram, State.afterCycle_ram, ramNext, ramNext, hwr, haddr, hdata, hcfg, hram]
  · rw [State.afterCycle_wordDraws, State.afterCycle_wordDraws, hdin, hdraws]

/-- Settles O29: the equations of the bridge and the peripheral read the peripheral, `rx` and the four inputs alone. -/
theorem cruPathIgnoresMemory : Obligations.CruPathIgnoresMemory := by
  intro s s' t t' i i' hperiph hdraws hreset hclk haddr hout hrx ht ht'
  obtain rfl := eq_afterCycle_of_step ht
  obtain rfl := eq_afterCycle_of_step ht'
  simp only [State.afterCycle_periph, State.afterCycle_bitDraws, State.afterCycle_ports, portsOf, cruinOf, State.anyBit,
    hperiph, hdraws, hreset, hclk, haddr, hout, hrx, and_self]

/-- Settles O30: the outputs are the tuple of R141, whose select and sub-address are read as numbers. -/
theorem outputsOfOneCycle : Obligations.OutputsOfOneCycle := by
  intro s i
  refine ⟨s.afterCycle i, step_drive s i, rfl, rfl, peripheralSelect_eq_true_iff_lt, rfl, rfl, cruSub_toNat _,
    fun haddr => ?_⟩
  rw [State.afterCycle_ports, portsOf, cruinOf, if_pos (peripheralSelect_eq_true_iff_lt.mpr haddr)]

/-! ### RAM over one cycle (R104) -/

theorem ramNext_of_write {s : State} {v : CycleVector} (h : writeRamStrobe v.addr v.wr = true) :
    ramNext s v = (s.writeRam v.addr v.dataOut).ram := by
  rw [ramNext, if_pos h, State.writeRam_ram]

theorem ramNext_of_no_write {s : State} {v : CycleVector} (h : writeRamStrobe v.addr v.wr = false) :
    ramNext s v = s.ram := by
  rw [ramNext, h, if_neg Bool.false_ne_true]

/-- A cycle keeps the canonical form of RAM. -/
theorem wf_ramNext {s : State} (h : Memory.wf s.cfg.ramInit s.ram = true) (v : CycleVector) :
    Memory.wf s.cfg.ramInit (ramNext s v) = true := by
  cases hwrite : writeRamStrobe v.addr v.wr with
  | true => rw [ramNext_of_write hwrite]; exact s.wf_writeRam v.addr v.dataOut h
  | false => rwa [ramNext_of_no_write hwrite]

theorem State.ramWord_afterCycle_of_write {s : State} {i : Inputs}
    (h : writeRamStrobe i.bus.addr i.bus.wr = true) (k : Nat) :
    (s.afterCycle i).ramWord k = (s.writeRam i.bus.addr i.bus.dataOut).ramWord k :=
  State.ramWord_of_eq (s := s.writeRam i.bus.addr i.bus.dataOut) (t := s.afterCycle i) rfl (ramNext_of_write h) k

theorem State.ramWord_afterCycle_of_no_write {s : State} {i : Inputs}
    (h : writeRamStrobe i.bus.addr i.bus.wr = false) (k : Nat) : (s.afterCycle i).ramWord k = s.ramWord k :=
  State.ramWord_of_eq (s := s) (t := s.afterCycle i) rfl (ramNext_of_no_write h) k

/-- Settles O33: RAM after the cycle is the store of R104 or RAM before it. -/
theorem ramWriteRule : Obligations.RamWriteRule := by
  intro s i hwf
  refine ⟨s.afterCycle i, step_drive s i, fun hwrite => ⟨?_, fun j hj => ?_⟩, fun hwrite => ⟨?_, fun j => ?_⟩⟩
  · rw [State.ramWord_afterCycle_of_write hwrite, State.ramWord_writeRam_same _ _ _ hwf]
  · rw [State.ramWord_afterCycle_of_write hwrite, State.ramWord_writeRam_other _ _ _ j hj]
  · rw [State.afterCycle_ram, ramNext_of_no_write hwrite]
  · rw [State.ramWord_afterCycle_of_no_write hwrite]

/-- Settles O42: a step keeps the record, and RAM after it is RAM before or one store into it. -/
theorem everyStepKeepsTheInvariant : Obligations.EveryStepKeepsTheInvariant := by
  intro s t hinv hstep
  obtain ⟨hcfg, hram⟩ := hinv
  rw [stepIsTheNetwork] at hstep
  cases hstep
  exact ⟨hcfg, wf_ramNext hram s.fetch.bus⟩

/-! ### `DIN` over one cycle (R89, R98, R105, R94) -/

theorem dinNext_of_reset {s : State} {v : CycleVector} (h : v.reset = true) : dinNext s v = s.cfg.dinReset := by
  rw [dinNext, if_pos h]

theorem dinNext_of_no_reset {s : State} {v : CycleVector} (h : v.reset = false) : dinNext s v = memOut s v := by
  rw [dinNext, h, if_neg Bool.false_ne_true]

theorem memOut_of_rom {s : State} {v : CycleVector} (h : romSelect v.addr = true) :
    memOut s v = some (s.romOutput v.addr) := by
  rw [memOut, if_pos h]

theorem romSelect_eq_false_of_strobe {a : Word} {rd : Bool} (h : readRamStrobe a rd = true) : romSelect a = false := by
  rw [romSelect_eq_not_ramSelect, (readRamStrobe_eq_true_iff.mp h).1, Bool.not_true]

theorem memOut_of_ramRead {s : State} {v : CycleVector} (hread : readRamStrobe v.addr v.rd = true)
    (hwrite : writeRamStrobe v.addr v.wr = false) : memOut s v = some (s.ramOutput v.addr) := by
  simp [memOut, romSelect_eq_false_of_strobe hread, hread, hwrite]

theorem memOut_of_ramReadWrite {s : State} {v : CycleVector} (hread : readRamStrobe v.addr v.rd = true)
    (hwrite : writeRamStrobe v.addr v.wr = true) : memOut s v = some (s.readDuringWrite v.addr v.dataOut) := by
  simp [memOut, romSelect_eq_false_of_strobe hread, hread, hwrite]

theorem State.afterCycle_din_of_some {s : State} {i : Inputs} {w : Word} (h : dinNext s i.bus = some w) :
    (s.afterCycle i).din = w := by
  rw [State.afterCycle_din, h, Option.getD_some]

/-- A cycle that is not in the ROM region is in the RAM region, where `rd` is the read strobe. -/
theorem readRamStrobe_of_not_rom {a : Word} (h : romSelect a = false) (rd : Bool) : readRamStrobe a rd = rd := by
  rw [romSelect_eq_not_ramSelect, Bool.not_eq_false'] at h
  rw [readRamStrobe, h, Bool.true_and]

theorem writeRamStrobe_of_wr {wr : Bool} (h : wr = false) (a : Word) : writeRamStrobe a wr = false := by
  rw [writeRamStrobe, h, Bool.and_false]

theorem State.afterCycle_din_of_rom {s : State} {i : Inputs} (hreset : i.bus.reset = false)
    (hrom : romSelect i.bus.addr = true) : (s.afterCycle i).din = s.romOutput i.bus.addr :=
  State.afterCycle_din_of_some ((dinNext_of_no_reset hreset).trans (memOut_of_rom hrom))

theorem State.afterCycle_din_of_ramRead {s : State} {i : Inputs} (hreset : i.bus.reset = false)
    (hread : readRamStrobe i.bus.addr i.bus.rd = true) (hwr : i.bus.wr = false) :
    (s.afterCycle i).din = s.ramOutput i.bus.addr :=
  State.afterCycle_din_of_some
    ((dinNext_of_no_reset hreset).trans (memOut_of_ramRead hread (writeRamStrobe_of_wr hwr _)))

/-- A portable read is no reset cycle, and it addresses ROM or it reads RAM without writing it. -/
theorem portableRead_cases {v : CycleVector} (h : portableRead v = true) :
    v.reset = false ∧ (romSelect v.addr = true ∨ readRamStrobe v.addr v.rd = true ∧ v.wr = false) := by
  simp only [portableRead, Bool.and_eq_true, Bool.not_eq_true', Bool.or_eq_true] at h
  obtain ⟨hreset, hsource⟩ := h
  refine ⟨hreset, ?_⟩
  cases hrom : romSelect v.addr with
  | true => exact .inl rfl
  | false =>
    obtain ⟨hrd, hwr⟩ := hsource.resolve_left (hrom ▸ Bool.false_ne_true)
    exact .inr ⟨(readRamStrobe_of_not_rom hrom _).trans hrd, hwr⟩

/-- Settles O40: without reset `DIN` takes the ROM word, which the image gives, or the RAM word, which is the same in
both states. -/
theorem portableReadIsDetermined : Obligations.PortableReadIsDetermined := by
  intro s s' t t' i hportable himage hram ht ht'
  obtain rfl := eq_afterCycle_of_step ht
  obtain rfl := eq_afterCycle_of_step ht'
  obtain ⟨hreset, hrom | ⟨hread, hwr⟩⟩ := portableRead_cases hportable
  · rw [State.afterCycle_din_of_rom hreset hrom, State.afterCycle_din_of_rom hreset hrom, State.romOutput,
      State.romOutput, State.romWord, State.romWord, himage]
  · rw [State.afterCycle_din_of_ramRead hreset hread hwr, State.afterCycle_din_of_ramRead hreset hread hwr,
      State.ramOutput, State.ramOutput, hram]

end Sys2Proof.Machine
end

section
/-! Driven runs (spec/60_exceptions.md section 2, spec/20_memory.md section 6): a run is the fold of `State.afterCycle`
over its inputs, so what one cycle keeps a run keeps, and what the last cycle does decides what the run leaves. -/

namespace Sys2Proof.Machine

open Sys2Proof.Safety

/-- The state that a driven run leads to. -/
def State.afterRun (s : State) (is : List Inputs) : State := is.foldl State.afterCycle s

@[simp] theorem State.afterRun_nil (s : State) : s.afterRun [] = s := rfl

@[simp] theorem State.afterRun_cons (s : State) (i : Inputs) (is : List Inputs) :
    s.afterRun (i :: is) = (s.afterCycle i).afterRun is := rfl

theorem State.afterRun_append (s : State) (is js : List Inputs) :
    s.afterRun (is ++ js) = (s.afterRun is).afterRun js := List.foldl_append

theorem runDriven_eq_afterRun (is : List Inputs) (s : State) : runDriven is s = .next (s.afterRun is) := by
  induction is generalizing s with
  | nil => rfl
  | cons i is ih => simp only [runDriven, step_drive, ih, State.afterRun_cons]

theorem eq_afterRun_of_runDriven {is : List Inputs} {s t : State} (h : runDriven is s = .next t) :
    t = s.afterRun is := by
  rw [runDriven_eq_afterRun] at h
  cases h
  rfl

@[simp] theorem State.afterRun_cfg (s : State) (is : List Inputs) : (s.afterRun is).cfg = s.cfg := by
  induction is generalizing s with
  | nil => rfl
  | cons i is ih => rw [State.afterRun_cons, ih, State.afterCycle_cfg]

@[simp] theorem State.afterRun_pending (s : State) (is : List Inputs) : (s.afterRun is).pending = s.pending := by
  induction is generalizing s with
  | nil => rfl
  | cons i is ih => rw [State.afterRun_cons, ih, State.afterCycle_pending]

theorem State.afterRun_cycle (s : State) (is : List Inputs) : (s.afterRun is).cycle = s.cycle + is.length := by
  induction is generalizing s with
  | nil => rfl
  | cons i is ih => rw [State.afterRun_cons, ih, State.afterCycle_cycle, List.length_cons]; omega

/-- Settles O25: every cycle of the run leads to a next state, one cycle later and with the same record. -/
theorem runsNeverStop : Obligations.RunsNeverStop := fun is s =>
  ⟨s.afterRun is, runDriven_eq_afterRun is s, s.afterRun_cycle is, s.afterRun_cfg is, s.afterRun_pending is⟩

/-- A cycle reads of the pending inputs the first alone. -/
theorem State.afterCycle_withPending (s : State) (i : Inputs) (is : List Inputs) :
    { s with pending := is }.afterCycle i = { s.afterCycle i with pending := is } := rfl

/-- Settles O26: a step takes the first pending input, which is the one that the driven run drives. -/
theorem drivenRunIsTheMachinesRun : Obligations.DrivenRunIsTheMachinesRun := by
  intro is
  induction is with
  | nil => intro s; rfl
  | cons i is ih =>
    intro s
    have hstep : step { s with pending := i :: (is ++ s.pending) } =
        .next { s.afterCycle i with pending := is ++ s.pending } :=
      (step_drive { s with pending := is ++ s.pending } i).trans
        (congrArg Host.Outcome.next (s.afterCycle_withPending i (is ++ s.pending)))
    have hfirst : Host.Core.run core (i :: is).length { s with pending := (i :: is) ++ s.pending } =
        Host.Core.run core is.length { s.afterCycle i with pending := is ++ s.pending } := by
      rw [List.length_cons, core_run_succ, List.cons_append, hstep]
      rfl
    have hrest : runDriven is (s.afterCycle i) = runDriven (i :: is) s := by
      rw [runDriven_eq_afterRun, runDriven_eq_afterRun, State.afterRun_cons]
    exact hfirst.trans ((ih (s.afterCycle i)).trans hrest)

/-! ### RAM over a run -/

theorem writeRamStrobe_of_rom {a : Word} (h : romSelect a = true) (wr : Bool) : writeRamStrobe a wr = false := by
  rw [romSelect_eq_not_ramSelect, Bool.not_eq_true'] at h
  rw [writeRamStrobe, h, Bool.false_and]

/-- Settles O36: no cycle changes the record, which holds the image, and the decoder passes no strobe in the ROM
region. -/
theorem romIsImmuneToWrites : Obligations.RomIsImmuneToWrites := by
  refine ⟨fun is s t c a hlen hrun => ?image, fun s i hrom => ?ram⟩
  case image =>
    obtain rfl := eq_afterRun_of_runDriven hrun
    refine ⟨s.romOutput a, _, State.romImage_getElem?_romOutput hlen a, rfl, ?_⟩
    exact State.romOutput_of_cfg (s.afterRun_cfg is) a
  case ram =>
    have hwrite := writeRamStrobe_of_rom hrom i.bus.wr
    exact ⟨s.afterCycle i, step_drive s i, ramNext_of_no_write hwrite, State.ramWord_afterCycle_of_no_write hwrite⟩

theorem writesWord_eq_true_iff {k : RamIndex} {v : CycleVector} :
    writesWord k v = true ↔ writeRamStrobe v.addr v.wr = true ∧ ramIdx v.addr = k := by
  rw [writesWord, Bool.and_eq_true, beq_iff_eq]

/-- One cycle stores a RAM word or leaves it (R104). -/
theorem State.ramWord_afterCycle {s : State} (hwf : Memory.wf s.cfg.ramInit s.ram = true) (i : Inputs) (k : RamIndex) :
    (s.afterCycle i).ramWord k.toNat = if writesWord k i.bus then i.bus.dataOut else s.ramWord k.toNat := by
  split_ifs with hwrites
  · obtain ⟨hwrite, rfl⟩ := writesWord_eq_true_iff.mp hwrites
    rw [State.ramWord_afterCycle_of_write hwrite, State.ramWord_writeRam_same _ _ _ hwf]
  · cases hwrite : writeRamStrobe i.bus.addr i.bus.wr with
    | false => exact State.ramWord_afterCycle_of_no_write hwrite _
    | true =>
      have hne : k.toNat ≠ (ramIdx i.bus.addr).toNat := fun h =>
        hwrites (writesWord_eq_true_iff.mpr ⟨hwrite, (BitVec.eq_of_toNat_eq h).symm⟩)
      rw [State.ramWord_afterCycle_of_write hwrite, State.ramWord_writeRam_other _ _ _ _ hne]

/-- After a run a RAM word holds what the last write of it stored (R46). -/
theorem State.ramWord_afterRun {s : State} (hwf : Memory.wf s.cfg.ramInit s.ram = true) (is : List Inputs)
    (k : RamIndex) : (s.afterRun is).ramWord k.toNat = lastWritten k is (s.ramWord k.toNat) := by
  induction is generalizing s with
  | nil => rfl
  | cons i is ih =>
    have hwf' : Memory.wf (s.afterCycle i).cfg.ramInit (s.afterCycle i).ram = true := wf_ramNext hwf i.bus
    rw [State.afterRun_cons, ih hwf', State.ramWord_afterCycle hwf, lastWritten]

/-- Settles O37: by induction on the run, each cycle storing the word or leaving it. -/
theorem ramHoldsTheLastWrite : Obligations.RamHoldsTheLastWrite := by
  intro is s t k hwf hrun
  obtain rfl := eq_afterRun_of_runDriven hrun
  exact State.ramWord_afterRun hwf is k

/-- Cycles that do not write a word leave what was last written. -/
theorem lastWritten_of_no_write {k : RamIndex} {is : List Inputs} (h : ∀ x ∈ is, writesWord k x.bus = false)
    (w : Word) : lastWritten k is w = w := by
  induction is with
  | nil => rfl
  | cons i is ih =>
    rw [lastWritten, h i List.mem_cons_self, if_neg Bool.false_ne_true]
    exact ih fun x hx => h x (List.mem_cons_of_mem i hx)

/-- Settles O38: before the read the word is still the one written, `RAM.RD` loads it, and the next cycle shows it. -/
theorem ramRoundTrip : Obligations.RamRoundTrip := by
  intro s i j n is hwf hwrite hkeep hreset hread hwr hidx
  refine ⟨_, runDriven_eq_afterRun _ s, ?_⟩
  have hword : (s.afterRun (i :: is)).ramWord (ramIdx i.bus.addr).toNat = i.bus.dataOut := by
    rw [State.ramWord_afterRun hwf, lastWritten, writesWord_eq_true_iff.mpr ⟨hwrite, rfl⟩, if_pos rfl,
      lastWritten_of_no_write hkeep]
  calc (s.afterRun (i :: (is ++ [j, n]))).ports.dataIn
      = (((s.afterRun (i :: is)).afterCycle j).afterCycle n).ports.dataIn := by
        rw [← List.cons_append, State.afterRun_append, State.afterRun_cons, State.afterRun_cons, State.afterRun_nil]
    _ = ((s.afterRun (i :: is)).afterCycle j).din := rfl
    _ = (s.afterRun (i :: is)).ramWord (ramIdx j.bus.addr).toNat :=
        State.afterCycle_din_of_ramRead hreset hread hwr
    _ = i.bus.dataOut := by rw [hidx, hword]

theorem State.afterRun_ram_of_no_write {s : State} {is : List Inputs}
    (h : ∀ i ∈ is, writeRamStrobe i.bus.addr i.bus.wr = false) : (s.afterRun is).ram = s.ram := by
  induction is generalizing s with
  | nil => rfl
  | cons i is ih =>
    rw [State.afterRun_cons, ih fun x hx => h x (List.mem_cons_of_mem i hx), State.afterCycle_ram,
      ramNext_of_no_write (h i List.mem_cons_self)]

/-- Settles O39: no cycle of the run writes RAM, and its last one resets `DIN`. -/
theorem resetRunKeepsMemory : Obligations.ResetRunKeepsMemory := by
  intro is s t hne hcycles hrun
  obtain rfl := eq_afterRun_of_runDriven hrun
  have hram : (s.afterRun is).ram = s.ram := State.afterRun_ram_of_no_write fun i hi => (hcycles i hi).2
  refine ⟨hram, State.ramWord_of_eq (s.afterRun_cfg is) hram, fun w hw => ?_⟩
  have hreset : (is.getLast hne).bus.reset = true := (hcycles _ (List.getLast_mem hne)).1
  rw [← List.dropLast_append_getLast hne, State.afterRun_append]
  refine State.afterCycle_din_of_some ((dinNext_of_reset hreset).trans ?_)
  rw [State.afterRun_cfg, hw]

/-! ### The circuit with registered memory outputs (R96) -/

/-- The circuit's RAM after a clock is the network's. -/
theorem syncClock_ram {s t : State} {c : SyncCircuit} (hcfg : t.cfg = s.cfg) (hram : c.ram = t.ram) (v : CycleVector) :
    (syncClock s c v).ram = ramNext t v := by
  rw [syncClock, ramNext, hcfg, hram]

theorem syncDataIn_syncClock_of_rom {s : State} {c : SyncCircuit} {v : CycleVector} (h : romSelect v.addr = true) :
    syncDataIn (syncClock s c v) = s.romOutput v.addr := by
  simp [syncDataIn, syncClock, h]

theorem syncDataIn_syncClock_of_ramRead {s : State} {c : SyncCircuit} {v : CycleVector}
    (hread : readRamStrobe v.addr v.rd = true) :
    syncDataIn (syncClock s c v) =
      if writeRamStrobe v.addr v.wr then { s with ram := c.ram }.readDuringWrite v.addr v.dataOut
      else { s with ram := c.ram }.ramOutput v.addr := by
  simp [syncDataIn, syncClock, hread, romSelect_eq_false_of_strobe hread]

/-- Where the value is no draw, the circuit's `data_in` after a clock without reset is what `DIN` captures. -/
theorem dinNext_eq_syncDataIn {s t : State} {c : SyncCircuit} {v : CycleVector} (hcfg : t.cfg = s.cfg)
    (hram : c.ram = t.ram) (hreset : v.reset = false) (hdet : dataInDetermined s.cfg v = true) :
    dinNext t v = some (syncDataIn (syncClock s c v)) := by
  have hsame : { s with ram := c.ram }.cfg = t.cfg := hcfg.symm
  rw [dinNext_of_no_reset hreset]
  cases hrom : romSelect v.addr with
  | true => rw [memOut_of_rom hrom, syncDataIn_syncClock_of_rom hrom, State.romOutput_of_cfg hcfg]
  | false =>
    have hrd : v.rd = true := by simpa [dataInDetermined, hreset, hrom] using hdet
    have hread : readRamStrobe v.addr v.rd = true := (readRamStrobe_of_not_rom hrom _).trans hrd
    rw [syncDataIn_syncClock_of_ramRead hread]
    cases hwrite : writeRamStrobe v.addr v.wr with
    | true => rw [memOut_of_ramReadWrite hread hwrite, if_pos rfl, State.readDuringWrite_of_eq hsame hram]
    | false =>
      rw [memOut_of_ramRead hread hwrite, if_neg Bool.false_ne_true, State.ramOutput_of_eq hsame hram]

/-- The circuit's RAM over a run is the model's. -/
theorem syncRun_ram {s t : State} {c : SyncCircuit} (hcfg : t.cfg = s.cfg) (hram : c.ram = t.ram) (is : List Inputs) :
    (syncRun s is c).ram = (t.afterRun is).ram := by
  induction is generalizing t c with
  | nil => exact hram
  | cons i is ih => exact ih (t := t.afterCycle i) hcfg (syncClock_ram hcfg hram i.bus)

theorem syncRun_append (s : State) (is js : List Inputs) (c : SyncCircuit) :
    syncRun s (is ++ js) c = syncRun s js (syncRun s is c) := by
  induction is generalizing c with
  | nil => rfl
  | cons i is ih => exact ih _

/-- Settles O41: the circuit's RAM follows the model's, and the last clock loads the latch that `data_in` then shows. -/
theorem synchronousCircuitRefinesDin : Obligations.SynchronousCircuitRefinesDin := by
  intro s t c is i hram hreset hdet hrun
  obtain rfl := eq_afterRun_of_runDriven hrun
  have hlast : i.bus.reset = false := hreset i (List.mem_append_right is List.mem_cons_self)
  refine ⟨?_, syncRun_ram rfl hram _⟩
  rw [syncRun_append, State.afterRun_append]
  exact (State.afterCycle_din_of_some
    (dinNext_eq_syncDataIn (s.afterRun_cfg is) (syncRun_ram rfl hram is) hlast hdet)).symm

end Sys2Proof.Machine
end

section
/-! The canonical form of RAM (log 1): two lists of entries in rising order that list the same entry at every index are
the same list. -/

namespace Sys2Proof.Machine

theorem lookup_cons_self (j : Nat) (w : Word) (m : Memory) : lookup ((j, w) :: m) j = some w := if_pos rfl

theorem lookup_cons_of_ne {i j : Nat} (h : i ≠ j) (w : Word) (m : Memory) : lookup ((j, w) :: m) i = lookup m i :=
  if_neg h

/-- The parts of the canonical form of a non-empty tail. -/
theorem wfFrom_cons {init : List Word} {lo j : Nat} {w : Word} {m : Memory} (h : wfFrom init lo ((j, w) :: m) = true) :
    lo ≤ j ∧ j < Config.ramWords ∧ wfFrom init (j + 1) m = true := by
  simp only [wfFrom, Bool.and_eq_true, decide_eq_true_eq] at h
  obtain ⟨⟨⟨hlo, hlt⟩, -⟩, htail⟩ := h
  exact ⟨hlo, hlt, htail⟩

/-- No entry of a canonical tail has an index beyond RAM. -/
theorem lookup_wfFrom_above {init : List Word} {lo : Nat} {m : Memory} (h : wfFrom init lo m = true) {k : Nat}
    (hk : Config.ramWords ≤ k) : lookup m k = none := by
  induction m generalizing lo with
  | nil => rfl
  | cons p m ih =>
    obtain ⟨j, w⟩ := p
    obtain ⟨-, hlt, htail⟩ := wfFrom_cons h
    rw [lookup_cons_of_ne (by omega), ih htail]

/-- The first index of one canonical tail is no earlier than that of another that lists the same entries. -/
theorem first_index_le {init : List Word} {j j' : Nat} {w w' : Word} {m m' : Memory}
    (h' : wfFrom init (j' + 1) m' = true) (hl : lookup ((j, w) :: m) j = lookup ((j', w') :: m') j) : j' ≤ j := by
  by_contra hlt
  rw [lookup_cons_self, lookup_cons_of_ne (by omega), lookup_wfFrom_below init m' (j' + 1) j h' (by omega)] at hl
  cases hl

/-- Canonical tails that list the same entries are the same list. -/
theorem eq_of_lookup_eq {init : List Word} {lo lo' : Nat} {m m' : Memory} (h : wfFrom init lo m = true)
    (h' : wfFrom init lo' m' = true) (hl : ∀ i, lookup m i = lookup m' i) : m = m' := by
  induction m generalizing lo lo' m' with
  | nil =>
    cases m' with
    | nil => rfl
    | cons p' m' => cases (hl p'.1).trans (lookup_cons_self p'.1 p'.2 m')
  | cons p m ih =>
    obtain ⟨j, w⟩ := p
    cases m' with
    | nil => cases (lookup_cons_self j w m).symm.trans (hl j)
    | cons p' m' =>
      obtain ⟨j', w'⟩ := p'
      obtain ⟨-, -, htail⟩ := wfFrom_cons h
      obtain ⟨-, -, htail'⟩ := wfFrom_cons h'
      obtain rfl : j = j' := le_antisymm (first_index_le htail (hl j').symm) (first_index_le htail' (hl j))
      have hw : w = w' := Option.some.inj
        ((lookup_cons_self j w m).symm.trans ((hl j).trans (lookup_cons_self j w' m')))
      have hm : m = m' := ih htail htail' fun i => by
        by_cases hij : i = j
        · rw [hij, lookup_wfFrom_below init m (j + 1) j htail (by omega),
            lookup_wfFrom_below init m' (j + 1) j htail' (by omega)]
        · rw [← lookup_cons_of_ne hij w m, hl i, lookup_cons_of_ne hij w' m']
      rw [hw, hm]

/-- Settles O45: words that read alike list the same entry, and beyond RAM nothing is listed. -/
theorem canonicalMemoriesAreEqualData : Obligations.CanonicalMemoriesAreEqualData := by
  intro init m m' hwf hwf' hread
  refine eq_of_lookup_eq hwf hwf' fun i => ?_
  rcases Nat.lt_or_ge i Config.ramWords with hlt | hge
  · exact lookup_eq_of_readMem_eq init m m' i hwf hwf' (hread i hlt)
  · rw [lookup_wfFrom_above hwf hge, lookup_wfFrom_above hwf' hge]

end Sys2Proof.Machine
end

section
/-! Construction (spec/60_exceptions.md section 1): the legal frequencies in MHz (R70, R71), the checks of a record with
the outcome of each (R142 to R145), and what `State.reset` is (spec/10_state.md section 5). -/

namespace Sys2Proof.Machine

open Sys2Proof.Safety

/-! ### The legal frequencies -/

theorem legalFrequency_iff_mhz {eff : Int} :
    legalFrequency eff = true ↔ ∃ k : Nat, 1 ≤ k ∧ k ≤ 63 ∧ eff = 1000000 * k := by
  rw [← Bool.not_eq_false, legalFrequency_eq_false_iff]
  constructor
  · intro h
    exact ⟨(eff / 1000000).toNat, by omega⟩
  · rintro ⟨k, hlow, hhigh, rfl⟩
    omega

theorem clockConfig_of_mhz {ref : Int} {req : Option Int} {k : Nat} (hlow : 1 ≤ k) (hhigh : k ≤ 63)
    (heff : effectiveHz ref req = 1000000 * k) :
    clockConfig ref req = .ok ⟨clockMode ref req, 1000000 * k, k⟩ := by
  have hbaud : ((1000000 * k : Int) / 1000000).toNat = k := by omega
  rw [clockConfig_of_legal (legalFrequency_iff_mhz.mpr ⟨k, hlow, hhigh, heff⟩), heff, hbaud]

/-- A requested frequency is the effective one, also where it is the reference (R68, R69). -/
theorem effectiveHz_some (ref r : Int) : effectiveHz ref (some r) = r := by
  cases hmode : clockMode ref (some r) with
  | synthesized => exact effectiveHz_of_synthesized hmode
  | passThrough =>
    have hreq : some r = none ∨ some r = some ref := clockMode_eq_passThrough_iff.mp hmode
    rw [effectiveHz_of_passThrough hmode]
    exact (Option.some.inj (hreq.resolve_left (Option.some_ne_none r))).symm

/-- Settles O47: the check of R70 is a range of whole MHz, and the number of MHz is the baud parameter. -/
theorem legalFrequenciesAreOneTo63MHz : Obligations.LegalFrequenciesAreOneTo63MHz := by
  refine ⟨fun ref req => ⟨?accepted, ?legal⟩, fun k hlow hhigh => ⟨fun _ _ => clockConfig_of_mhz hlow hhigh,
    clockConfig_of_mhz hlow hhigh rfl, fun ref => ⟨_, clockConfig_of_mhz hlow hhigh (effectiveHz_some ref _)⟩⟩⟩
  case accepted =>
    rintro ⟨setting, hok⟩
    refine legalFrequency_iff_mhz.mp (Bool.eq_true_of_not_eq_false fun hbad => ?_)
    rw [clockConfig_of_illegal hbad] at hok
    cases hok
  case legal =>
    rintro ⟨k, hlow, hhigh, heff⟩
    exact ⟨_, clockConfig_of_mhz hlow hhigh heff⟩

/-! ### The checks of construction -/

/-- A memory block reads and writes words of different widths (R143). -/
def BadWidth (cfg : Cfg) : Prop :=
  cfg.romShape.readWidth ≠ cfg.romShape.writeWidth ∨ cfg.ramShape.readWidth ≠ cfg.ramShape.writeWidth

/-- A memory block is empty or the image does not fill ROM (R145). -/
def BadSize (cfg : Cfg) : Prop :=
  cfg.romShape.depth = 0 ∨ cfg.ramShape.depth = 0 ∨ cfg.romImage.length ≠ 4096

theorem widthsMatch_iff {cfg : Cfg} :
    (widthsMatch cfg.romShape && widthsMatch cfg.ramShape) = true ↔ ¬BadWidth cfg := by
  simp only [widthsMatch, BadWidth, Bool.and_eq_true, beq_iff_eq, ne_eq, not_or, not_not]

theorem sizesMatch_iff {cfg : Cfg} :
    (hasSize cfg.romShape && hasSize cfg.ramShape && imageComplete cfg) = true ↔ ¬BadSize cfg := by
  simp only [hasSize, imageComplete, BadSize, Config.romWords, Bool.and_eq_true, bne_iff_ne, beq_iff_eq, ne_eq, not_or,
    not_not, and_assoc]

theorem checkBlocks_of_badWidth {cfg : Cfg} (h : BadWidth cfg) : checkBlocks cfg = .error .widthMismatch := by
  have hcheck := Bool.eq_false_iff.mpr (mt widthsMatch_iff.mp (not_not.mpr h))
  rw [checkBlocks, hcheck, Bool.not_false, if_pos rfl]

theorem checkBlocks_of_badSize {cfg : Cfg} (hwidth : ¬BadWidth cfg) (h : BadSize cfg) :
    checkBlocks cfg = .error .malformedConfig := by
  have hcheck := Bool.eq_false_iff.mpr (mt sizesMatch_iff.mp (not_not.mpr h))
  rw [checkBlocks, widthsMatch_iff.mpr hwidth, hcheck, Bool.not_true, if_neg Bool.false_ne_true, Bool.not_false,
    if_pos rfl]

theorem checkBlocks_of_good {cfg : Cfg} (hwidth : ¬BadWidth cfg) (hsize : ¬BadSize cfg) : checkBlocks cfg = .ok () := by
  rw [checkBlocks, widthsMatch_iff.mpr hwidth, sizesMatch_iff.mpr hsize, Bool.not_true, if_neg Bool.false_ne_true,
    if_neg Bool.false_ne_true]

theorem construct_of_illegal {cfg : Cfg} (h : legalFrequency (effectiveHz cfg.refFreqHz cfg.reqFreqHz) = false)
    (d : Word) : construct cfg d = .error .badFrequency := by
  rw [construct, clockConfig_of_illegal h]

/-- With a legal frequency the memory blocks decide. -/
theorem construct_of_mhz {cfg : Cfg} {k : Nat} (hlow : 1 ≤ k) (hhigh : k ≤ 63)
    (heff : effectiveHz cfg.refFreqHz cfg.reqFreqHz = 1000000 * k) (d : Word) :
    construct cfg d = (checkBlocks cfg).map fun _ => timeZero cfg k d := by
  rw [construct, clockConfig_of_mhz hlow hhigh heff]
  cases checkBlocks cfg <;> rfl

@[simp] theorem timeZero_cfg (cfg : Cfg) (baud : Nat) (d : Word) : (timeZero cfg baud d).cfg = cfg := rfl
@[simp] theorem timeZero_din (cfg : Cfg) (baud : Nat) (d : Word) : (timeZero cfg baud d).din = d := rfl
@[simp] theorem timeZero_cycle (cfg : Cfg) (baud : Nat) (d : Word) : (timeZero cfg baud d).cycle = 0 := rfl
@[simp] theorem timeZero_ramWord (cfg : Cfg) (baud : Nat) (d : Word) (i : Nat) :
    (timeZero cfg baud d).ramWord i = unlisted cfg.ramInit i := rfl

/-- A record without any of the causes passes the checks, and its RAM at time zero is canonical. -/
theorem inv_timeZero {cfg : Cfg} (hfreq : legalFrequency (effectiveHz cfg.refFreqHz cfg.reqFreqHz) = true)
    (hwidth : ¬BadWidth cfg) (hsize : ¬BadSize cfg) (baud : Nat) (d : Word) : Inv (timeZero cfg baud d) := by
  obtain ⟨hrom, hram⟩ := Bool.and_eq_true_iff.mp (widthsMatch_iff.mpr hwidth)
  obtain ⟨hsizes, himage⟩ := Bool.and_eq_true_iff.mp (sizesMatch_iff.mpr hsize)
  obtain ⟨hromSize, hramSize⟩ := Bool.and_eq_true_iff.mp hsizes
  refine ⟨?_, Memory.wf_nil _⟩
  rw [timeZero, legalCfg, hfreq, hrom, hram, hromSize, hramSize, himage]
  rfl

/-- The outcomes of construction, each with its cause. -/
theorem construct_cases (cfg : Cfg) (d : Word) :
    (legalFrequency (effectiveHz cfg.refFreqHz cfg.reqFreqHz) = false ∧ construct cfg d = .error .badFrequency) ∨
    (legalFrequency (effectiveHz cfg.refFreqHz cfg.reqFreqHz) = true ∧
      ((BadWidth cfg ∧ construct cfg d = .error .widthMismatch) ∨
      (¬BadWidth cfg ∧ BadSize cfg ∧ construct cfg d = .error .malformedConfig) ∨
      (¬BadWidth cfg ∧ ¬BadSize cfg ∧ ∃ baud, construct cfg d = .ok (timeZero cfg baud d)))) := by
  cases hfreq : legalFrequency (effectiveHz cfg.refFreqHz cfg.reqFreqHz) with
  | false => exact .inl ⟨rfl, construct_of_illegal hfreq d⟩
  | true =>
    obtain ⟨k, hlow, hhigh, heff⟩ := legalFrequency_iff_mhz.mp hfreq
    have hconstruct := construct_of_mhz hlow hhigh heff d
    refine .inr ⟨rfl, ?_⟩
    by_cases hwidth : BadWidth cfg
    · rw [checkBlocks_of_badWidth hwidth] at hconstruct
      exact .inl ⟨hwidth, hconstruct⟩
    by_cases hsize : BadSize cfg
    · rw [checkBlocks_of_badSize hwidth hsize] at hconstruct
      exact .inr (.inl ⟨hwidth, hsize, hconstruct⟩)
    · rw [checkBlocks_of_good hwidth hsize] at hconstruct
      exact .inr (.inr ⟨hwidth, hsize, k, hconstruct⟩)

/-- Settles O48: each clause is read off the outcome that its cause leads to. -/
theorem constructionRefusesBadRecords : Obligations.ConstructionRefusesBadRecords := by
  intro cfg d badFreq badWidth badSize
  have hbadFreq : badFreq ↔ legalFrequency (effectiveHz cfg.refFreqHz cfg.reqFreqHz) = false := Iff.rfl
  have hbadWidth : badWidth ↔ BadWidth cfg := Iff.rfl
  have hbadSize : badSize ↔ BadSize cfg := Iff.rfl
  rw [hbadFreq, hbadWidth, hbadSize]
  obtain ⟨hfreq, h⟩ | ⟨hfreq, ⟨hwidth, h⟩ | ⟨hwidth, hsize, h⟩ | ⟨hwidth, hsize, baud, h⟩⟩ := construct_cases cfg d
  · simp [h, hfreq]
  · simp [h, hfreq, hwidth]
  · simp [h, hfreq, hsize]
  · have hinv := inv_timeZero hfreq hwidth hsize baud d
    simp [h, hfreq, hwidth, hsize, hinv]

/-! ### The state after reset -/

theorem theRecord_effectiveMHz :
    effectiveHz Config.theRecord.refFreqHz Config.theRecord.reqFreqHz = 1000000 * Config.clockMHz :=
  Config.theRecord_effectiveHz.trans Config.clockHz_toInt

theorem theRecord_not_badWidth : ¬BadWidth Config.theRecord := by
  rw [BadWidth, Config.theRecord_romShape, Config.theRecord_ramShape]
  decide

theorem theRecord_not_badSize : ¬BadSize Config.theRecord := by
  rw [BadSize, Config.theRecord_romShape, Config.theRecord_ramShape, Config.theRecord_romImage, Config.tabulate_length]
  decide

/-- The state after reset is the one at time zero of its record. -/
theorem reset_eq_timeZero : State.reset = timeZero Config.theRecord Config.clockMHz State.reset.din := rfl

/-- Settles O43: its record has none of the causes of R142. -/
theorem resetStateHasTheInvariant : Obligations.ResetStateHasTheInvariant := by
  obtain ⟨hlow, hhigh⟩ := Config.clockMHz_bounds
  exact inv_timeZero (legalFrequency_iff_mhz.mpr ⟨_, hlow, hhigh, theRecord_effectiveMHz⟩) theRecord_not_badWidth
    theRecord_not_badSize Config.clockMHz State.reset.din

/-- Settles O44: construction accepts the record and builds time zero, where no RAM word is listed. -/
theorem resetStateIsConstructed : Obligations.ResetStateIsConstructed := by
  obtain ⟨hlow, hhigh⟩ := Config.clockMHz_bounds
  refine ⟨?built, rfl, fun _ => rfl, fun w hw => ?present, fun hw => ?absent⟩
  case built =>
    refine (construct_of_mhz hlow hhigh theRecord_effectiveMHz State.reset.din).trans ?_
    rw [checkBlocks_of_good theRecord_not_badWidth theRecord_not_badSize, reset_eq_timeZero]
    rfl
  case present => exact congrArg (Option.getD · 0) hw
  case absent => exact congrArg (Option.getD · 0) hw

end Sys2Proof.Machine
end

section
/-! The lines of a stimulus (spec/30_encoding.md section 7): which of them assemble, what their cycle decodes to, and
the pseudo-operations on a bit-register with the fixture of R124. -/

namespace Sys2Proof.Machine

open Sys2Proof.Safety

/-! ### Assembling a line (R65) -/

/-- The cycle of a mnemonic line, where the line is well formed. -/
def lineVector (op : MemOp) (a : Word) (dout : Option Word) (cru : Option CruOp) : CycleVector :=
  ⟨memOpReset op, cruOpClk cru, memOpWr op, memOpRd op, a, dout.getD 0, cruOpOut cru⟩

section
variable {op : MemOp} {a : Word} {dout : Option Word} {cru : Option CruOp}

theorem assemble_of_region (h : memOpBank op ≠ bank a) :
    assemble (.mnemonic op a dout cru) = .error .regionMismatch := by
  rw [assemble, if_pos (bne_iff_ne.mpr h)]

theorem assemble_of_range (hbank : memOpBank op = bank a) (h : cruOpFits a cru = false) :
    assemble (.mnemonic op a dout cru) = .error .rangeMismatch := by
  rw [assemble, hbank, bne_self_eq_false, if_neg Bool.false_ne_true, h, Bool.not_false, if_pos rfl]

theorem assemble_of_fits (hbank : memOpBank op = bank a) (h : cruOpFits a cru = true) :
    assemble (.mnemonic op a dout cru) = .ok (lineVector op a dout cru) := by
  rw [assemble, hbank, bne_self_eq_false, if_neg Bool.false_ne_true, h, Bool.not_true, if_neg Bool.false_ne_true]
  rfl

/-- A line that assembles agrees with its address in both parts, and gives its cycle. -/
theorem eq_lineVector_of_assemble {v : CycleVector} (h : assemble (.mnemonic op a dout cru) = .ok v) :
    memOpBank op = bank a ∧ cruOpFits a cru = true ∧ v = lineVector op a dout cru := by
  by_cases hbank : memOpBank op = bank a
  · cases hfits : cruOpFits a cru with
    | false => rw [assemble_of_range hbank hfits] at h; cases h
    | true => rw [assemble_of_fits hbank hfits] at h; cases h; exact ⟨hbank, rfl, rfl⟩
  · rw [assemble_of_region hbank] at h; cases h

/-- The memory-path operation of a line's cycle is the one the line names. -/
theorem decodeMem_lineVector_mnemonic (hbank : memOpBank op = bank a) :
    (decodeMem (lineVector op a dout cru)).mnemonic = memOpName op := by
  cases op <;> simp only [lineVector, decodeMem, ← hbank, memOpBank, memOpReset, memOpWr, memOpRd] <;> rfl

/-- In a reset cycle the `rd` that the mnemonic leaves free is 0. -/
theorem lineVector_rd_of_reset (h : (lineVector op a dout cru).reset = true) :
    (lineVector op a dout cru).rd = false := by
  cases op with
  | rstRom | rstRam | rstRamWr => rfl
  | _ => cases h

end

theorem decodeCru_mnemonic_of_off {v : CycleVector} (h : peripheralSelect v.addr = false) :
    (decodeCru v).mnemonic = "CRU.OFF" := by
  rw [decodeCru_of_unselected h]; rfl

theorem decodeCru_mnemonic_of_selected {v : CycleVector} (h : peripheralSelect v.addr = true) :
    (decodeCru v).mnemonic = if v.cruclk then "CRU.STROBE" else "CRU.SENSE" := by
  rw [decodeCru, h]
  cases v.cruclk <;> rfl

theorem peripheralSelect_eq_false_iff_le {a : Word} : peripheralSelect a = false ↔ 0x40 ≤ a.toNat := by
  rw [← Bool.not_eq_true, peripheralSelect_eq_true_iff_lt, Nat.not_lt]

/-- `STROBE` and `SENSE` fit the addresses that select the peripheral. -/
theorem cruOpFits_selected {a : Word} {cru : Option CruOp} (h : (∃ b, cru = some (.strobe b)) ∨ cru = some .sense) :
    cruOpFits a cru = peripheralSelect a := by
  obtain ⟨b, rfl⟩ | rfl := h <;> rfl

/-- `OFF` and `OFF+CLK` fit the others. -/
theorem cruOpFits_unselected {a : Word} {cru : Option CruOp} (h : cru = some .off ∨ ∃ b, cru = some (.offClk b)) :
    cruOpFits a cru = !peripheralSelect a := by
  obtain rfl | ⟨b, rfl⟩ := h <;> rfl

/-- Settles O49: a line assembles exactly where both its parts fit its address, and then the bits of its cycle are those
of its two parts, from which the decoders read the operations named. -/
theorem assembledLineSelectsItsOperations : Obligations.AssembledLineSelectsItsOperations := by
  refine ⟨fun _ => rfl, fun op a dout cru => ⟨assemble_of_region, assemble_of_range,
    fun hbank hfits => ⟨_, assemble_of_fits hbank hfits⟩, ?absent, fun h => ?selected,
    fun h => ?unselected, fun v hv => ?cycle⟩⟩
  case absent => rintro rfl; rfl
  case selected => rw [cruOpFits_selected h, peripheralSelect_eq_true_iff_lt]
  case unselected => rw [cruOpFits_unselected h, Bool.not_eq_true', peripheralSelect_eq_false_iff_le]
  case cycle =>
    obtain ⟨hbank, hfits, rfl⟩ := eq_lineVector_of_assemble hv
    refine ⟨decodeMem_lineVector_mnemonic hbank, rfl, rfl, lineVector_rd_of_reset, ?_, ?_, ?_, ?_, ?_, ?_⟩
    · rintro rfl; rfl
    · rintro b rfl; exact ⟨decodeCru_mnemonic_of_selected hfits, rfl⟩
    · rintro rfl; exact ⟨decodeCru_mnemonic_of_selected hfits, rfl⟩
    · rintro rfl; exact ⟨decodeCru_mnemonic_of_off ((Bool.not_eq_true' _).mp hfits), rfl⟩
    · rintro b rfl; exact ⟨decodeCru_mnemonic_of_off ((Bool.not_eq_true' _).mp hfits), rfl, rfl⟩
    · rintro rfl; exact ⟨rfl, rfl⟩

/-! ### Setting and testing a bit-register (R66, R124) -/

theorem bitAddress_toNat (k : CruSub) : (bitAddress k).toNat = 2 * k.toNat := by
  have hk : k.toNat < 32 := k.isLt
  rw [bitAddress, BitVec.toNat_ofNat]
  omega

theorem peripheralSelect_bitAddress (k : CruSub) : peripheralSelect (bitAddress k) = true := by
  have hk : k.toNat < 32 := k.isLt
  rw [peripheralSelect_eq_true_iff_lt, bitAddress_toNat]
  omega

theorem romSelect_bitAddress (k : CruSub) : romSelect (bitAddress k) = true := by
  have hk : k.toNat < 32 := k.isLt
  rw [romSelect_eq_true_iff, bitAddress_toNat]
  omega

theorem cruSub_bitAddress (k : CruSub) : cruSub (bitAddress k) = k := by
  have hk : k.toNat < 32 := k.isLt
  apply BitVec.eq_of_toNat_eq
  rw [cruSub_toNat, bitAddress_toNat]
  omega

theorem State.romOutput_bitAddress (s : State) (k : CruSub) : s.romOutput (bitAddress k) = s.romWord k.toNat := by
  have hk : k.toNat < 32 := k.isLt
  have hidx : (romIdx (bitAddress k)).toNat = k.toNat := by
    rw [romIdx_toNat, bitAddress_toNat]
    omega
  rw [State.romOutput, hidx]

/-- The cycle of a line of `ROM.IDLE` at bit-register `k`, with its CRU part and the level of `rx`. -/
def bitCycle (k : CruSub) (cru : CruOp) (rx : Bool) : Inputs :=
  ⟨lineVector .romIdle (bitAddress k) none (some cru), rx⟩

/-- At the address of a bit-register a line of `ROM.IDLE` assembles with `STROBE` and with `SENSE`. -/
theorem assemble_bitCycle (k : CruSub) {cru : CruOp} (rx : Bool)
    (h : (∃ b, some cru = some (.strobe b)) ∨ some cru = some .sense) :
    assemble (.mnemonic .romIdle (bitAddress k) none (some cru)) = .ok (bitCycle k cru rx).bus := by
  have hbank : bank (bitAddress k) = false := (Bool.not_eq_true' _).mp (romSelect_bitAddress k)
  exact assemble_of_fits hbank.symm ((cruOpFits_selected h).trans (peripheralSelect_bitAddress k))

theorem assemble_expand_set (k : CruSub) (b rx : Bool) :
    assemble (expand (if b then .setBit k else .clrBit k)) = .ok (bitCycle k (.strobe b) rx).bus := by
  cases b <;> exact assemble_bitCycle k rx (.inl ⟨_, rfl⟩)

section
variable (s : State) (k : CruSub) (cru : CruOp) (rx : Bool)

@[simp] theorem bitCycle_addr : (bitCycle k cru rx).bus.addr = bitAddress k := rfl
@[simp] theorem bitCycle_reset : (bitCycle k cru rx).bus.reset = false := rfl

theorem romSelect_bitCycle : romSelect (bitCycle k cru rx).bus.addr = true := by
  rw [bitCycle_addr, romSelect_bitAddress]

/-- The memory path of such a cycle captures ROM word `k` (R126). -/
theorem State.afterCycle_bitCycle_din : (s.afterCycle (bitCycle k cru rx)).din = s.romWord k.toNat := by
  rw [State.afterCycle_din_of_rom (bitCycle_reset k cru rx) (romSelect_bitCycle k cru rx), bitCycle_addr,
    State.romOutput_bitAddress]

theorem State.afterCycle_bitCycle_ram : (s.afterCycle (bitCycle k cru rx)).ram = s.ram := by
  rw [State.afterCycle_ram, ramNext_of_no_write (writeRamStrobe_of_rom (romSelect_bitCycle k cru rx) _)]

/-- The peripheral is selected and clocked at bit-register `k`. -/
theorem State.afterCycle_bitCycle_periph : (s.afterCycle (bitCycle k cru rx)).periph =
    s.periph.advance true (cruOpClk (some cru)) (cruOpOut (some cru)) k false rx := by
  rw [State.afterCycle_periph, bitCycle, lineVector, peripheralSelect_bitAddress, cruSub_bitAddress]
  rfl

/-- The answer of such a cycle is the bit of the peripheral's state before it. -/
theorem State.afterCycle_bitCycle_cruin : (s.afterCycle (bitCycle k cru rx)).ports.cruin = s.periph.sense k := by
  rw [State.afterCycle_ports, portsOf, cruinOf, bitCycle, lineVector, peripheralSelect_bitAddress, cruSub_bitAddress,
    if_pos rfl]

theorem State.afterCycle_bitCycle_perS : (s.afterCycle (bitCycle k cru rx)).ports.perS = k := cruSub_bitAddress k

end

/-- A strobe of `b` at bit-register `k` leaves `b` in latch `k` (R124). -/
theorem State.sense_after_strobe {s : State} {bits : BitVec 32} (h : s.periph = .latch bits) (k : CruSub)
    (b rx : Bool) : (s.afterCycle (bitCycle k (.strobe b) rx)).periph.sense k = b := by
  rw [State.afterCycle_bitCycle_periph, h, PeriphState.advance_latch]
  exact (setBit_getLsbD bits b k.isLt).trans (if_pos rfl)

/-- Settles O50: the strobe sets latch `k`, the sense cycle answers it, and in both the memory path captures the ROM
word and leaves RAM. -/
theorem setBitThenTestBit : Obligations.SetBitThenTestBit := by
  intro s bits k b x y hlatch
  refine ⟨(bitCycle k (.strobe b) x).bus, (bitCycle k .sense y).bus, _, assemble_expand_set k b x,
    assemble_bitCycle k y (.inr rfl), runDriven_eq_afterRun _ s, ?cruin, State.afterCycle_bitCycle_perS _ k .sense y,
    State.afterCycle_bitCycle_din _ k .sense y, ?ram⟩
  case cruin => exact (State.afterCycle_bitCycle_cruin _ k .sense y).trans (State.sense_after_strobe hlatch k b x)
  case ram =>
    exact (State.afterCycle_bitCycle_ram _ k .sense y).trans (State.afterCycle_bitCycle_ram s k (.strobe b) x)

end Sys2Proof.Machine
end
